-- ==== Sys2Proof/Config.lean ====
section
/-! DEFINITION. The build-time parameters of WAVEGEN (R6). The coefficients and the detune ratio are fixed in the block
and are no input of a command (R6, R21). `LATENCY` has no place in the model: no rule depends on it (R160). -/

namespace Sys2Proof.Config

/-- `COEFF_SCALE` (R6). -/
def coeffScale : Int := 10000

/-- `COEFF_A` (R6). -/
def coeffA : Int := -4292

/-- `COEFF_B` (R6). -/
def coeffB : Int := -1416

/-- `COEFF_C` (R6). -/
def coeffC : Int := 15708

/-- `DETUNE_NUM` (R6). -/
def detuneNum : Int := 7

/-- `DETUNE_DEN` (R6). -/
def detuneDen : Int := 5

/-- The default the spec gives the open parameter `TRACE_ENABLE` (R6, R34). The parameter itself is the field
`traceEnable` of State, so every statement about all states holds for both of its values (log 1, DESIGN CHOICE). -/
def traceEnableDefault : Bool := false

end Sys2Proof.Config
end

