-- ==== Sys2Proof/Word.lean ====
section
/-! DEFINITION. The word types of WAVEGEN: the 67-bit command word and its fields (R50), the signed 16-bit sample (R6,
R11), the 4-bit `STATUS` register (R11). Every vector has bit 0 as its least significant bit (R7). -/

namespace Sys2Proof

/-- One command word `CMD`, 67 bits (R50). Bit 67 does not exist (R51). -/
abbrev CmdWord := BitVec 67

/-- The field `OP`, bits 66:64 of the command word, unsigned (R50). -/
abbrev OpField := BitVec 3

/-- The field `VOLUME`, bits 63:48, unsigned (R50, R6 `VOLUME_W`). -/
abbrev Volume := BitVec 16

/-- The field `PERIOD`, bits 47:32, unsigned (R50, R6 `PERIOD_W`). -/
abbrev Period := BitVec 16

/-- The field `PHASE`, bits 31:0, unsigned (R50, R6 `PHASE_W`). -/
abbrev Phase := BitVec 32

/-- One sample, 16 bits read as signed two's complement (R6 `SAMPLE_W`, R7). Its signed value is `BitVec.toInt`. -/
abbrev Sample := BitVec 16

/-- The register `STATUS`, 4 bits (R11): `VALID` bit 0, `FAULT` bit 1, `CAUSE` bits 3:2. -/
abbrev Status := BitVec 4

end Sys2Proof
end

