-- ==== Sys2Proof/Machine/State.lean ====
section
/-! DEFINITION. The state of WAVEGEN as plain data. `Block` is the whole architectural state (R11); what stands beside it
in `State` is the model's own record of the block's surroundings, which the block does not keep (R21). -/

namespace Sys2Proof.Machine

/-- The causes a command can fault with (R18, R121, R122, R123). The fourth value of `STATUS.CAUSE`, NONE, is no fault. -/
inductive FaultCause where
  /-- The `PERIOD` field is 0 (R121). -/
  | zeroPeriod
  /-- A `test` command whose inner period is 0 while its outer period is not (R123). -/
  | zeroInnerPeriod
  /-- The `OP` field is 5, 6 or 7 (R122). -/
  | illegalOp
deriving DecidableEq, Repr

/-- What a command evaluates to (R80): a sample, or a fault with its cause. -/
inductive Result where
  | sample (x : Sample)
  | fault (c : FaultCause)
deriving DecidableEq, Repr

/-- The architectural state of the block: two registers and nothing else (R11). -/
structure Block where
  /-- `SAMPLE`: a signed 16-bit value, or no value (R11, R12). -/
  sample : Option Sample
  /-- `STATUS`: `VALID` bit 0, `FAULT` bit 1, `CAUSE` bits 3:2 (R11). -/
  status : Status
deriving DecidableEq, Repr

/-- One event at the block's two input ports (R30). -/
inductive Input where
  /-- A host presents a command word on `cmd` (R31). -/
  | command (w : CmdWord)
  /-- The platform asserts `reset` (R150, R151). -/
  | reset
deriving DecidableEq, Repr

/-- One item delivered on the block's two output transfer ports (R30). -/
inductive Output where
  /-- `emit Resp(x)` (R33). -/
  | resp (x : Sample)
  /-- `emit Trace(period, phase)` (R34). -/
  | trace (period : Period) (phase : Phase)
deriving DecidableEq, Repr

/-- The machine: the block, and around it the model's own fields (R21 keeps them out of the block). -/
structure State where
  /-- The architectural state (R11). -/
  block : Block
  /-- The events still to reach the input ports, oldest first (R31, R41, R44, R151; log 2). -/
  inputs : List Input
  /-- The items delivered so far, oldest first (R21, R33, R34, R41; log 3). -/
  outputs : List Output
  /-- The build-time parameter `TRACE_ENABLE`; no step changes it (R6, R34; log 1). -/
  traceEnable : Bool
deriving DecidableEq, Repr

/-- Why the machine stops. -/
inductive Fault where
  /-- Raised by a step, and by every meaning, in a state with `STATUS.FAULT` = 1 where no reset is to come: the halted
  block has no step (R127, U13). Safe: the block has no transition there either. -/
  | halted
deriving DecidableEq, Repr

/-- Why the model gives no meaning. -/
inductive Refusal where
  /-- An instruction with no meaning yet, by its mnemonic; raised by no arm of this model. Safe. -/
  | notModelled (mnemonic : String)
deriving DecidableEq, Repr

/-- Right after reset (R22, R150): `SAMPLE` has no value, `STATUS` is 0. Nothing is presented and nothing has been
delivered (log 2, log 3, DESIGN CHOICE); `TRACE_ENABLE` has the default R6 gives it (log 1). -/
def State.reset : State :=
  { block := { sample := none, status := 0 }
    inputs := []
    outputs := []
    traceEnable := Config.traceEnableDefault }

end Sys2Proof.Machine
end

