-- ==== Sys2Proof/Machine/Flags.lean ====
section
/-! DEFINITION. The fields of `STATUS` (R11, R16 to R18). The block has no condition codes (R15): no operation sets a flag
as a side effect of its arithmetic. -/

namespace Sys2Proof.Machine

/-- `STATUS.VALID`, bit 0 (R16). -/
def statusValid (st : Status) : Bool := st.getLsbD 0

/-- `STATUS.FAULT`, bit 1 (R17). -/
def statusFault (st : Status) : Bool := st.getLsbD 1

/-- `STATUS.CAUSE`, bits 3:2 (R18). -/
def statusCause (st : Status) : BitVec 2 := st.extractLsb' 2 2

/-- The register with the three given fields (R11). -/
def mkStatus (valid fault : Bool) (cause : BitVec 2) : Status :=
  cause ++ BitVec.ofBool fault ++ BitVec.ofBool valid

/-- `STATUS.VALID <- b`, the other fields unchanged. -/
def setValid (b : Bool) (st : Status) : Status := mkStatus b (statusFault st) (statusCause st)

/-- `STATUS.FAULT <- b`, the other fields unchanged. -/
def setFault (b : Bool) (st : Status) : Status := mkStatus (statusValid st) b (statusCause st)

/-- `STATUS.CAUSE <- c`, the other fields unchanged. -/
def setCause (c : BitVec 2) (st : Status) : Status := mkStatus (statusValid st) (statusFault st) c

/-- The code of a cause in `STATUS.CAUSE` (R18). -/
def causeCode : FaultCause → BitVec 2
  | .zeroPeriod => 1
  | .zeroInnerPeriod => 2
  | .illegalOp => 3

/-- The cause a code names; code 0 is NONE (R18). -/
def causeOfCode (c : BitVec 2) : Option FaultCause :=
  match c.toNat with
  | 1 => some .zeroPeriod
  | 2 => some .zeroInnerPeriod
  | 3 => some .illegalOp
  | _ => none

end Sys2Proof.Machine
end

