-- ==== Sys2Proof/Machine/Operands.lean ====
section
/-! DEFINITION. Reading the operands of a command (R52) and the phase reduction every operation starts from (R75). -/

namespace Sys2Proof.Machine

/-- An operand field read as the unsigned number its bits spell: no sign extension, scaling, shift or offset (R52). -/
def operand {n : Nat} (field : BitVec n) : Nat := field.toNat

/-- `x = phase mod period`, over the whole 32-bit phase (R75). Used with `period > 0` only (R80; log 13). -/
def position (period phase : Nat) : Int := ((phase % period : Nat) : Int)

end Sys2Proof.Machine
end

