-- ==== Sys2Proof/Machine/Ops.lean ====
section
/-! DEFINITION. The operations every instruction shares: the integer primitives (R8, R70, R74), the writes of the two
registers and the two output ports, fault entry (R124), reset (R150) and the envelope of a command (R81). There is no
return from a fault (R128): reset is the only event that leaves the halted state. -/

namespace Sys2Proof.Machine

/-- `tdiv(a, b)`: division truncating toward zero, by the formula of R70. Used with `b` not 0 only (R70; log 13). -/
def tdiv (a b : Int) : Int := a.sign * b.sign * ((a.natAbs / b.natAbs : Nat) : Int)

/-- `trunc_16(r)`: `r` modulo 2^16, for any integer (R8). -/
def trunc16 (r : Int) : Nat := (r % 65536).toNat

/-- `trunc_32(r)`: `r` modulo 2^32, for any integer (R8). -/
def trunc32 (r : Int) : Nat := (r % 4294967296).toNat

/-- `narrow16(r)`: the low 16 bits of `r`, read as two's complement (R74); nothing records a value that does not fit. -/
def narrow16 (r : Int) : Sample := BitVec.ofInt 16 r

/-- While `STATUS.FAULT` = 1 the block is halted (R127). -/
def halted (s : State) : Bool := statusFault s.block.status

/-- The events still to come become `rest`. -/
def withInputs (rest : List Input) (s : State) : State := { s with inputs := rest }

/-- Taking a fault, `raise Fault(c)` (R124): `FAULT <- 1`, `CAUSE <- c`, `VALID <- 0`, `SAMPLE <- no value`; no response
and no trace event, nothing saved. -/
def raiseFault (c : FaultCause) (s : State) : State :=
  { s with
    block :=
      { sample := none
        status := setValid false (setCause (causeCode c) (setFault true s.block.status)) } }

/-- Reset (R150): `SAMPLE <- no value`, `VALID`, `FAULT` and `CAUSE` <- 0; no response and no trace event. -/
def resetBlock (s : State) : State :=
  { s with
    block :=
      { sample := none
        status := setCause 0 (setFault false (setValid false s.block.status)) } }

/-- `emit Resp(x)` (R33). -/
def emitResp (x : Sample) (s : State) : State := { s with outputs := s.outputs ++ [.resp x] }

/-- `emit Trace(period, phase)`: does nothing when `TRACE_ENABLE` is false (R8, R34). -/
def emitTrace (period : Period) (phase : Phase) (s : State) : State :=
  if s.traceEnable then { s with outputs := s.outputs ++ [.trace period phase] } else s

/-- The completion of a command (R81): `SAMPLE <- x`, `VALID <- 1`, `emit Resp(x)`. -/
def complete (x : Sample) (s : State) : State :=
  emitResp x { s with block := { sample := some x, status := setValid true s.block.status } }

/-- A command's result is the narrowed raw result, or ZERO_PERIOD when its `PERIOD` field is 0 (R80, R121). -/
def resultOf (period : Period) (raw : Int) : Result :=
  if period = 0 then .fault .zeroPeriod else .sample (narrow16 raw)

/-- The end of a command that the block executes (R81): a fault is taken, a sample is delivered. -/
def deliver (r : Result) (s : State) : State :=
  match r with
  | .fault c => raiseFault c s
  | .sample x => complete x s

/-- The step of the block for one command (R81), enabled only while `STATUS.FAULT` = 0 (R127). -/
def runCommand (r : Result) (s : State) : Host.Outcome State Fault Refusal :=
  if halted s then .fault .halted else .next (deliver r s)

/-- `deliver` with the trace event of `sawtooth` before the response; a command that faults emits none (R34, R129). -/
def deliverTraced (r : Result) (period : Period) (phase : Phase) (s : State) : State :=
  match r with
  | .fault c => raiseFault c s
  | .sample x => complete x (emitTrace period phase s)

/-- `runCommand` for the one operation that traces (R81, R34). -/
def runTracedCommand (r : Result) (period : Period) (phase : Phase) (s : State) :
    Host.Outcome State Fault Refusal :=
  if halted s then .fault .halted else .next (deliverTraced r period phase s)

end Sys2Proof.Machine
end

