-- ==== Sys2Proof/Machine/Linear.lean ====
section
/-! DEFINITION. The closed-form waveforms `sawtooth` (R90), `triangle` (R91) and `square` (R92). -/

namespace Sys2Proof.Machine

/-- `sawtooth_raw` (R90): the whole product first, then the division, then the subtraction. -/
def sawtoothRaw (volume period phase : Nat) : Int :=
  tdiv (position period phase * volume) period - tdiv volume 2

/-- `sawtooth` evaluated (R80, R90). -/
def sawtoothResult (volume : Volume) (period : Period) (phase : Phase) : Result :=
  resultOf period (sawtoothRaw (operand volume) (operand period) (operand phase))

/-- `sawtooth volume, period, phase` (R90, R81): the only operation that traces (R34). -/
def execSawtooth (volume : Volume) (period : Period) (phase : Phase) (s : State) :
    Host.Outcome State Fault Refusal :=
  runTracedCommand (sawtoothResult volume period phase) period phase s

/-- `half = tdiv(period, 2)` (R91, R92), also `h` of the sine engine (R103). -/
def halfPeriod (period : Nat) : Int := tdiv period 2

/-- `triangle_raw` (R91): the comparison is strict, `x = half` takes the falling arm. -/
def triangleRaw (volume period phase : Nat) : Int :=
  if position period phase < halfPeriod period then
    tdiv (position period phase * 2 * volume) period - tdiv volume 2
  else
    tdiv ((period - position period phase) * 2 * volume) period - tdiv volume 2

/-- `triangle` evaluated (R80, R91). -/
def triangleResult (volume : Volume) (period : Period) (phase : Phase) : Result :=
  resultOf period (triangleRaw (operand volume) (operand period) (operand phase))

/-- `triangle volume, period, phase` (R91, R81). -/
def execTriangle (volume : Volume) (period : Period) (phase : Phase) (s : State) :
    Host.Outcome State Fault Refusal :=
  runCommand (triangleResult volume period phase) s

/-- `square_raw` (R92): the comparison is strict, `x = half` is in the low part. -/
def squareRaw (volume period phase : Nat) : Int :=
  if position period phase < halfPeriod period then tdiv volume 4 else -tdiv volume 4

/-- `square` evaluated (R80, R92). -/
def squareResult (volume : Volume) (period : Period) (phase : Phase) : Result :=
  resultOf period (squareRaw (operand volume) (operand period) (operand phase))

/-- `square volume, period, phase` (R92, R81). -/
def execSquare (volume : Volume) (period : Period) (phase : Phase) (s : State) :
    Host.Outcome State Fault Refusal :=
  runCommand (squareResult volume period phase) s

end Sys2Proof.Machine
end

