-- ==== Sys2Proof/Machine/Sine.lean ====
section
/-! DEFINITION. The fixed-point sine engine (R100 to R105) and the operation `sine` (R106). -/

namespace Sys2Proof.Machine

/-- The three coefficients of one evaluation (R101). -/
structure Coefficients where
  a : Int
  b : Int
  c : Int
deriving DecidableEq, Repr

/-- One coefficient: multiply first, then one truncating division by `COEFF_SCALE` (R101). -/
def coefficient (volume : Nat) (literal : Int) : Int := tdiv (volume * literal) Config.coeffScale

/-- `A`, `B` and `C` of `volume`, computed anew in every evaluation (R101, R20). -/
def coefficients (volume : Nat) : Coefficients :=
  { a := coefficient volume Config.coeffA
    b := coefficient volume Config.coeffB
    c := coefficient volume Config.coeffC }

/-- `section = tdiv(x * 4, p)` (R102); 0, 1, 2 or 3 when `0 <= x < p`. -/
def sineSection (p : Nat) (x : Int) : Int := tdiv (x * 4) p

/-- The quarter position `xq` of `x` in section `q`, with `h = tdiv(p, 2)` (R103). The last arm is section 3: no other
value can occur (R102; log 14). -/
def quarterPosition (p : Nat) (q x : Int) : Int :=
  let h := halfPeriod p
  if q = 0 then x
  else if q = 1 then h - x
  else if q = 2 then x - h
  else h - (x - h)

/-- Every named intermediate of the cubic chain (R104): the products `m1` to `m6`, the quotients between them and the
three finished terms. -/
structure CubicChain where
  m1 : Int
  d1 : Int
  m2 : Int
  d2 : Int
  m3 : Int
  t3 : Int
  m4 : Int
  d4 : Int
  m5 : Int
  t2 : Int
  m6 : Int
  t1 : Int
deriving DecidableEq, Repr

/-- The chain of R104: six multiplications by `xq` and six truncating divisions by `p`, in this order. -/
def cubicChain (volume p : Nat) (xq : Int) : CubicChain :=
  let k := coefficients volume
  let m1 := k.a * 64 * xq
  let d1 := tdiv m1 p
  let m2 := d1 * xq
  let d2 := tdiv m2 p
  let m3 := d2 * xq
  let t3 := tdiv m3 p
  let m4 := k.b * 16 * xq
  let d4 := tdiv m4 p
  let m5 := d4 * xq
  let t2 := tdiv m5 p
  let m6 := k.c * 4 * xq
  let t1 := tdiv m6 p
  { m1, d1, m2, d2, m3, t3, m4, d4, m5, t2, m6, t1 }

/-- `cubic(volume, p, xq)`: the three finished terms added (R104). -/
def cubic (volume p : Nat) (xq : Int) : Int :=
  (cubicChain volume p xq).t3 + (cubicChain volume p xq).t2 + (cubicChain volume p xq).t1

/-- The sign of a section: the finished sum is negated in sections 2 and 3 (R103, R105). -/
def applySectionSign (q r : Int) : Int := if q = 0 ∨ q = 1 then r else -r

/-- `sine_raw` (R106). -/
def sineRaw (volume period phase : Nat) : Int :=
  let x := position period phase
  let q := sineSection period x
  applySectionSign q (cubic volume period (quarterPosition period q x))

/-- `sine` evaluated (R80, R106). -/
def sineResult (volume : Volume) (period : Period) (phase : Phase) : Result :=
  resultOf period (sineRaw (operand volume) (operand period) (operand phase))

/-- `sine volume, period, phase` (R106, R81). -/
def execSine (volume : Volume) (period : Period) (phase : Phase) (s : State) :
    Host.Outcome State Fault Refusal :=
  runCommand (sineResult volume period phase) s

end Sys2Proof.Machine
end

