-- ==== Sys2Proof/Machine/FmTest.lean ====
section
/-! DEFINITION. The frequency-modulated operation `test` (R115 to R118): two evaluations of the sine engine. -/

namespace Sys2Proof.Machine

/-- The inner period `q = trunc_16(tdiv(period * 7, 5))` (R115). -/
def innerPeriod (period : Nat) : Nat := trunc16 (tdiv (period * Config.detuneNum) Config.detuneDen)

/-- `inner`: the narrowed sample of the inner sine, at the inner period and the original phase (R117). -/
def innerSample (volume period phase : Nat) : Sample := narrow16 (sineRaw volume (innerPeriod period) phase)

/-- `phase2 = trunc_32(phase + inner)`, `inner` signed (R117). -/
def modulatedPhase (volume period phase : Nat) : Nat :=
  trunc32 (phase + (innerSample volume period phase).toInt)

/-- `test_raw`: the outer sine at the original period and the modulated phase (R118). -/
def testRaw (volume period phase : Nat) : Int := sineRaw volume period (modulatedPhase volume period phase)

/-- `test` evaluated (R80, R118): ZERO_PERIOD before ZERO_INNER_PERIOD (R125), both before anything is computed (R116). -/
def testResult (volume : Volume) (period : Period) (phase : Phase) : Result :=
  if period ≠ 0 ∧ innerPeriod (operand period) = 0 then .fault .zeroInnerPeriod
  else resultOf period (testRaw (operand volume) (operand period) (operand phase))

/-- `test volume, period, phase` (R118, R81). It runs `sine` twice, never `sawtooth`, so it does not trace (R34). -/
def execTest (volume : Volume) (period : Period) (phase : Phase) (s : State) :
    Host.Outcome State Fault Refusal :=
  runCommand (testResult volume period phase) s

end Sys2Proof.Machine
end

