-- ==== Sys2Proof/Syntax.lean ====
section
/-! DEFINITION. The instructions of WAVEGEN: one constructor of `Instr` per row of spec/opcode_table.json (R54, R55),
each with the three operands `volume, period, phase` (R53). `SourceCommand` is a command as the assembler reads it,
before its literals are known to fit their fields (R60). -/

namespace Sys2Proof

/-- The five operations, in the order of their `OP` numbers (R54). -/
inductive Op where
  | sawtooth
  | triangle
  | square
  | sine
  | test
deriving DecidableEq, Repr

/-- One command that names an operation. Operands are the unsigned fields of the command word (R50, R52). -/
inductive Instr where
  /-- `sawtooth volume, period, phase`, `OP` = 0 (R90). -/
  | sawtooth (volume : Volume) (period : Period) (phase : Phase)
  /-- `triangle volume, period, phase`, `OP` = 1 (R91). -/
  | triangle (volume : Volume) (period : Period) (phase : Phase)
  /-- `square volume, period, phase`, `OP` = 2 (R92). -/
  | square (volume : Volume) (period : Period) (phase : Phase)
  /-- `sine volume, period, phase`, `OP` = 3 (R106). -/
  | sine (volume : Volume) (period : Period) (phase : Phase)
  /-- `test volume, period, phase`, `OP` = 4 (R118). -/
  | test (volume : Volume) (period : Period) (phase : Phase)
deriving DecidableEq, Repr

/-- The operation of a command. -/
def Instr.op : Instr → Op
  | .sawtooth _ _ _ => .sawtooth
  | .triangle _ _ _ => .triangle
  | .square _ _ _ => .square
  | .sine _ _ _ => .sine
  | .test _ _ _ => .test

/-- The operand `volume` of a command. -/
def Instr.volume : Instr → Volume
  | .sawtooth v _ _ => v
  | .triangle v _ _ => v
  | .square v _ _ => v
  | .sine v _ _ => v
  | .test v _ _ => v

/-- The operand `period` of a command. -/
def Instr.period : Instr → Period
  | .sawtooth _ p _ => p
  | .triangle _ p _ => p
  | .square _ p _ => p
  | .sine _ p _ => p
  | .test _ p _ => p

/-- The operand `phase` of a command. -/
def Instr.phase : Instr → Phase
  | .sawtooth _ _ ph => ph
  | .triangle _ _ ph => ph
  | .square _ _ ph => ph
  | .sine _ _ ph => ph
  | .test _ _ ph => ph

/-- The command with a given operation and operands. -/
def Instr.ofParts (op : Op) (volume : Volume) (period : Period) (phase : Phase) : Instr :=
  match op with
  | .sawtooth => .sawtooth volume period phase
  | .triangle => .triangle volume period phase
  | .square => .square volume period phase
  | .sine => .sine volume period phase
  | .test => .test volume period phase

/-- A command of the assembler (R60): an operation and three literals, which may be too large for their fields. -/
structure SourceCommand where
  op : Op
  volume : Nat
  period : Nat
  phase : Nat
deriving DecidableEq, Repr

end Sys2Proof
end

