-- ==== Sys2Proof/Machine/Dispatch.lean ====
section
/-! DEFINITION. The meaning of each instruction: one arm per constructor (R54, R55). -/

namespace Sys2Proof.Machine

def exec (i : Instr) (s : State) : Host.Outcome State Fault Refusal :=
  match i with
  | .sawtooth volume period phase => Sys2Proof.Machine.execSawtooth volume period phase s
  | .triangle volume period phase => Sys2Proof.Machine.execTriangle volume period phase s
  | .square volume period phase => Sys2Proof.Machine.execSquare volume period phase s
  | .sine volume period phase => Sys2Proof.Machine.execSine volume period phase s
  | .test volume period phase => Sys2Proof.Machine.execTest volume period phase s

end Sys2Proof.Machine
end

