-- ==== Sys2Proof/WellFormed.lean ====
section
/-! DEFINITION. Well-formed commands. The fields of an `Instr` are bit vectors of the field widths, so no ill-formed
`Instr` can be built: every bit pattern of every field is a legal encoding (R52, R57; `PERIOD` = 0 decodes normally and
faults at execution). What can be ill formed is a command of the assembler, whose literals may not fit (R60). -/

namespace Sys2Proof

/-- `volume` fits its 16-bit field (R60: at most 65535). -/
def SourceCommand.volumeFits (c : SourceCommand) : Bool := decide (c.volume ≤ 65535)

/-- `period` fits its 16-bit field (R60: at most 65535). -/
def SourceCommand.periodFits (c : SourceCommand) : Bool := decide (c.period ≤ 65535)

/-- `phase` fits its 32-bit field (R60: at most 4294967295). -/
def SourceCommand.phaseFits (c : SourceCommand) : Bool := decide (c.phase ≤ 4294967295)

/-- A command the assembler accepts (R60); a literal out of range is an assembly error, not a truncation. -/
def SourceCommand.wellFormed (c : SourceCommand) : Bool := c.volumeFits && c.periodFits && c.phaseFits

/-- Every decoded command is well formed: within `OP` 0 to 4 there are no reserved operand values (R57). -/
def Instr.wellFormed : Instr → Bool
  | .sawtooth _ _ _ => true
  | .triangle _ _ _ => true
  | .square _ _ _ => true
  | .sine _ _ _ => true
  | .test _ _ _ => true

/-- The instruction of a source command. It is the command meant where the source command is well formed. -/
def SourceCommand.toInstr (c : SourceCommand) : Instr :=
  Instr.ofParts c.op (BitVec.ofNat 16 c.volume) (BitVec.ofNat 16 c.period) (BitVec.ofNat 32 c.phase)

end Sys2Proof
end

