-- ==== Sys2Proof/Decode.lean ====
section
/-! DEFINITION. The decoder, total on all 2^67 command words (R57), and the encoder (R50, R54). A word with `OP` in 5 to
7 is rejected by name (R56). -/

namespace Sys2Proof

/-- `CMD[66:64]` (R50). -/
def opField (w : CmdWord) : OpField := w.extractLsb' 64 3

/-- `CMD[63:48]` (R50, R52). -/
def volumeField (w : CmdWord) : Volume := w.extractLsb' 48 16

/-- `CMD[47:32]` (R50, R52). -/
def periodField (w : CmdWord) : Period := w.extractLsb' 32 16

/-- `CMD[31:0]` (R50, R52). -/
def phaseField (w : CmdWord) : Phase := w.extractLsb' 0 32

/-- The `OP` number of an operation (R54). -/
def opNumber : Op → OpField
  | .sawtooth => 0
  | .triangle => 1
  | .square => 2
  | .sine => 3
  | .test => 4

/-- The operation an `OP` number selects; none for the reserved numbers 5, 6 and 7 (R54, R56). -/
def opOfNumber (n : OpField) : Option Op :=
  match n.toNat with
  | 0 => some .sawtooth
  | 1 => some .triangle
  | 2 => some .square
  | 3 => some .sine
  | 4 => some .test
  | _ => none

/-- What a command word decodes to (R57): a command, or a reserved encoding, named with its `OP` field (R56). -/
inductive Decoded where
  | instr (i : Instr)
  | illegalOp (op : OpField)
deriving DecidableEq, Repr

/-- The decoder (R50, R52, R54, R56, R57). Only the three `OP` bits select the operation. -/
def decode (w : CmdWord) : Decoded :=
  match opOfNumber (opField w) with
  | some op => .instr (Instr.ofParts op (volumeField w) (periodField w) (phaseField w))
  | none => .illegalOp (opField w)

/-- The encoder: `CMD = {OP, VOLUME, PERIOD, PHASE}` (R50). -/
def encode (i : Instr) : CmdWord :=
  opNumber i.op ++ i.volume ++ i.period ++ i.phase

/-- One row of the opcode map (R54): a word selects the row whose `w AND mask` is `pattern`. -/
structure OpcodeRow where
  op : Op
  pattern : CmdWord
  mask : CmdWord
deriving DecidableEq, Repr

/-- The opcode map, with the match and mask numbers the table prints (R54). -/
def opcodeRows : List OpcodeRow :=
  [ ⟨.sawtooth, 0x00000000000000000, 0x70000000000000000⟩,
    ⟨.triangle, 0x10000000000000000, 0x70000000000000000⟩,
    ⟨.square, 0x20000000000000000, 0x70000000000000000⟩,
    ⟨.sine, 0x30000000000000000, 0x70000000000000000⟩,
    ⟨.test, 0x40000000000000000, 0x70000000000000000⟩ ]

/-- The operations whose row a word selects by mask and match (R54). -/
def rowsSelected (w : CmdWord) : List Op :=
  (opcodeRows.filter fun r => w &&& r.mask == r.pattern).map OpcodeRow.op

/-- The command word whose bits are `w`, of which the table gives `nbits`; none where a bit above bit 66 is set, since
bit 67 does not exist in a command word (R51; log 11). -/
def tableWord (nbits w : Nat) : Option CmdWord :=
  if w % 2 ^ nbits < 2 ^ 67 then some (BitVec.ofNat 67 (w % 2 ^ nbits)) else none

/-- The instruction the decoder reads from a row's bits. A command word is one vector, so no byte order arises (R36). -/
def decodeTableWord (nbits w : Nat) : Option Instr :=
  match tableWord nbits w with
  | some c =>
    match decode c with
    | .instr i => some i
    | .illegalOp _ => none
  | none => none

end Sys2Proof
end

