-- ==== Sys2Proof/Machine/Fetch.lean ====
section
/-! DEFINITION. What reaches the block next. The block fetches nothing (R14): it executes the command the host issues next
(R58), and a reset comes before or after a command, never inside one (R151). -/

namespace Sys2Proof.Machine

/-- The block's next transition. -/
inductive Event where
  /-- Nothing is presented: the block is idle and keeps its registers (R136). -/
  | idle
  /-- Halted, and no reset is to come: the block has no step (R127). -/
  | stuck
  /-- Reset is asserted; `rest` is still to come (R150). -/
  | reset (rest : List Input)
  /-- The command word `w` is accepted; `rest` is still to come (R31). -/
  | command (w : CmdWord) (rest : List Input)
deriving DecidableEq, Repr

/-- The events without the first reset among them, if there is one. -/
def removeReset : List Input → Option (List Input)
  | [] => none
  | .reset :: rest => some rest
  | .command w :: rest => (removeReset rest).map (.command w :: ·)

/-- The next transition. A halted block accepts no command: presented words are not consumed and stay presented, and the
next reset is the one transition it has (R127, R150; log 2). -/
def nextEvent (s : State) : Event :=
  if halted s then
    match removeReset s.inputs with
    | some rest => .reset rest
    | none => .stuck
  else
    match s.inputs with
    | [] => .idle
    | .reset :: rest => .reset rest
    | .command w :: rest => .command w rest

/-- The host presents the word `w` on `cmd`, ahead of every other event (R31; log 6). -/
def presentWord (w : CmdWord) (s : State) : State := { s with inputs := .command w :: s.inputs }

/-- The host presents the table's word, if its bits are a command word (log 11). -/
def presentTableWord (nbits w : Nat) (s : State) : State :=
  match tableWord nbits w with
  | some c => presentWord c s
  | none => s

end Sys2Proof.Machine
end

