-- ==== Sys2Proof/Machine/Step.lean ====
section
/-! DEFINITION. The step of the machine (R81, R127, R150, R151). -/

namespace Sys2Proof.Machine

/-- One transition: the next event reaches the block. A reserved encoding takes the fault ILLEGAL_OP (R56, R122). -/
def step (s : State) : Host.Outcome State Fault Refusal :=
  match nextEvent s with
  | .idle => .next s
  | .stuck => .fault .halted
  | .reset rest => .next (resetBlock (withInputs rest s))
  | .command w rest =>
    match decode w with
    | .instr i => exec i (withInputs rest s)
    | .illegalOp _ => .next (raiseFault .illegalOp (withInputs rest s))

/-- The word is presented on `cmd`, so that the next step of a block that is not halted runs it (log 6). -/
def State.withFetchWord (s : State) (nbits w : Nat) : State := presentTableWord nbits w s

end Sys2Proof.Machine
end

