-- ==== Sys2Proof/Machine/Assembler.lean ====
section
/-! DEFINITION. The text of a command: the assembler (R60, R61), the disassembler (R62) and the 17 hexadecimal digits of a
word (R51), over lists of characters. What R60 leaves open of the text is in log 10. -/

namespace Sys2Proof.Machine

/-- What assembling one line gives. -/
inductive AsmResult where
  /-- The command word. -/
  | word (w : CmdWord)
  /-- The line holds nothing but white space and a comment. -/
  | blank
  /-- The line does not begin with one of the five mnemonics or the `.word` form. -/
  | unknownMnemonic
  /-- The operands are not three literals, or a `.word` operand is not 17 hexadecimal digits. -/
  | badOperands
  /-- A literal does not fit its field: an assembly error, not a truncation (R60). -/
  | outOfRange
deriving DecidableEq, Repr

/-- The mnemonic of an operation, in lower case (R60). -/
def mnemonicText : Op → List Char
  | .sawtooth => ['s', 'a', 'w', 't', 'o', 'o', 't', 'h']
  | .triangle => ['t', 'r', 'i', 'a', 'n', 'g', 'l', 'e']
  | .square => ['s', 'q', 'u', 'a', 'r', 'e']
  | .sine => ['s', 'i', 'n', 'e']
  | .test => ['t', 'e', 's', 't']

/-- The operation of a mnemonic. -/
def opOfText (t : List Char) : Option Op :=
  [Op.sawtooth, Op.triangle, Op.square, Op.sine, Op.test].find? fun op => mnemonicText op == t

/-- The name of the one directive-like form (R61). -/
def wordText : List Char := ['.', 'w', 'o', 'r', 'd']

/-- Space or tab. -/
def isBlank (c : Char) : Bool := c == ' ' || c == '\t'

/-- White space removed at both ends. -/
def trim (t : List Char) : List Char := ((t.dropWhile isBlank).reverse.dropWhile isBlank).reverse

/-- The text before a comment, which runs from `;` to the end of the line (R60). -/
def stripComment (t : List Char) : List Char := t.takeWhile (· != ';')

/-- The digit that stands for `d`, with `d` below 16, by its character code: the ten decimal digits, then the capitals the
spec's words are written with (R51). -/
def digitChar (d : Nat) : Char := Char.ofNat (d + if d < 10 then 48 else 55)

/-- The number below `base` that a character stands for: the one whose digit it is, a small letter read as its capital
(R60; log 10). -/
def digitValue (base : Nat) (c : Char) : Option Nat := (List.range base).find? fun d => digitChar d == c.toUpper

/-- Digits read on from the number `acc`; none where a character is no digit of the base. -/
def readDigits (base : Nat) (acc : Nat) : List Char → Option Nat
  | [] => some acc
  | c :: rest => (digitValue base c).bind fun d => readDigits base (acc * base + d) rest

/-- A number of at least one digit. -/
def readNumber (base : Nat) : List Char → Option Nat
  | [] => none
  | t => readDigits base 0 t

/-- An unsigned literal, decimal or hexadecimal with `0x` (R60). -/
def readLiteral : List Char → Option Nat
  | '0' :: 'x' :: rest => readNumber 16 rest
  | t => readNumber 10 t

/-- The text between commas. -/
def splitCommas : List Char → List (List Char)
  | [] => [[]]
  | c :: rest =>
    if c = ',' then [] :: splitCommas rest
    else
      match splitCommas rest with
      | [] => [[c]]
      | t :: ts => (c :: t) :: ts

/-- The operand text after a mnemonic: after white space, or in the parentheses of the call notation (R60). -/
def operandText (t : List Char) : Option (List Char) :=
  match trim t with
  | '(' :: rest =>
    match rest.reverse with
    | ')' :: inside => some inside.reverse
    | _ => none
  | rest =>
    match t with
    | c :: _ => if isBlank c then some rest else none
    | [] => none

/-- The command word of a source command, its literals checked against their fields (R60). -/
def assembleCommand (c : SourceCommand) : AsmResult :=
  if c.wellFormed then .word (encode c.toInstr) else .outOfRange

/-- The command of an operation and its operand text: `<volume>, <period>, <phase>` (R60). -/
def assembleOperands (op : Op) (t : List Char) : AsmResult :=
  match splitCommas t with
  | [v, p, ph] =>
    match readLiteral (trim v), readLiteral (trim p), readLiteral (trim ph) with
    | some v, some p, some ph => assembleCommand ⟨op, v, p, ph⟩
    | _, _, _ => .badOperands
  | _ => .badOperands

/-- The operand of `.word`: `0x` and 17 hexadecimal digits, of which the first is at most 7 (R51, R61). -/
def assembleWord : List Char → AsmResult
  | '0' :: 'x' :: digits =>
    if digits.length = 17 then
      match readNumber 16 digits with
      | some n => if n < 2 ^ 67 then .word (BitVec.ofNat 67 n) else .outOfRange
      | none => .badOperands
    else .badOperands
  | _ => .badOperands

/-- One line assembled (R60, R61). A line of the `.word` form is the word itself. -/
def assemble (line : List Char) : AsmResult :=
  match trim (stripComment line) with
  | [] => .blank
  | c :: rest =>
    let name := (c :: rest).takeWhile fun c => c.isLower || c == '.'
    let after := (c :: rest).dropWhile fun c => c.isLower || c == '.'
    if name = wordText then
      match after with
      | c :: _ => if isBlank c then assembleWord (trim after) else .badOperands
      | [] => .badOperands
    else
      match opOfText name with
      | some op =>
        match operandText after with
        | some t => assembleOperands op t
        | none => .badOperands
      | none => .unknownMnemonic

/-- The decimal digits of `n` before `acc`, at most `fuel` of them. -/
def decimalLoop : Nat → Nat → List Char → List Char
  | 0, _, acc => acc
  | fuel + 1, n, acc =>
    if n < 10 then digitChar n :: acc else decimalLoop fuel (n / 10) (digitChar (n % 10) :: acc)

/-- A field in decimal, without leading zeros; ten digits hold every 32-bit number. -/
def decimalText (n : Nat) : List Char := decimalLoop 10 n []

/-- The last `k` hexadecimal digits of `n`, before `acc`. -/
def hexLoop : Nat → Nat → List Char → List Char
  | 0, _, acc => acc
  | k + 1, n, acc => hexLoop k (n / 16) (digitChar (n % 16) :: acc)

/-- A command word as `0x` and 17 hexadecimal digits (R51). -/
def wordHex (w : CmdWord) : List Char := '0' :: 'x' :: hexLoop 17 w.toNat []

/-- The text of a command: the mnemonic followed by the three fields in decimal (R60, R62). -/
def commandText (i : Instr) : List Char :=
  mnemonicText i.op ++ ' ' :: (decimalText i.volume.toNat ++ ',' :: ' ' ::
    (decimalText i.period.toNat ++ ',' :: ' ' :: decimalText i.phase.toNat))

/-- The disassembler (R62): a reserved encoding prints as `.word` and its hexadecimal digits. -/
def disassemble (w : CmdWord) : List Char :=
  match decode w with
  | .instr i => commandText i
  | .illegalOp _ => wordText ++ ' ' :: wordHex w

end Sys2Proof.Machine
end

