-- ==== Sys2Proof/Machine/Wave.lean ====
section
/-! DEFINITION. The sample function `wave` of R80, written line by line from its pseudocode: a pure, total function of the
operation number 0 to 7 and the three operands, which reads no state (R10). The step of the machine is built from the
instructions' own meanings; that the two agree is a statement for the provers. -/

namespace Sys2Proof.Machine

/-- The raw result of operation `op` (R80). -/
def rawOf (op volume period phase : Nat) : Int :=
  match op with
  | 0 => sawtoothRaw volume period phase
  | 1 => triangleRaw volume period phase
  | 2 => squareRaw volume period phase
  | 3 => sineRaw volume period phase
  | _ => testRaw volume period phase

/-- `wave(op, volume, period, phase)` (R80). The order of the three tests is the fault priority (R125). -/
def wave (op : OpField) (volume : Volume) (period : Period) (phase : Phase) : Result :=
  if op.toNat ≥ 5 then .fault .illegalOp
  else if period = 0 then .fault .zeroPeriod
  else if op.toNat = 4 ∧ trunc16 (tdiv (period.toNat * 7) 5) = 0 then .fault .zeroInnerPeriod
  else .sample (narrow16 (rawOf op.toNat volume.toNat period.toNat phase.toNat))

end Sys2Proof.Machine
end

