-- ==== Sys2Proof/Machine/Int32.lean ====
section
/-! DEFINITION. The 32-bit-safe domain (R73): the predicate `INT32_SAFE`, and an implementation whose intermediates are
signed 32-bit numbers that wrap, such as the original software may be. The block itself computes exactly (R71); outside
`INT32_SAFE` the source does not define the software (U4; log 7). -/

namespace Sys2Proof.Machine

/-- `v` lies in -2147483648 to 2147483647 (R73). -/
def fitsInt32 (v : Int) : Bool := decide (-2147483648 ≤ v ∧ v ≤ 2147483647)

/-- The values R73 lists for one `sine` evaluation. -/
def sineInt32Values (volume period phase : Nat) : List Int :=
  let x := position period phase
  let k := coefficients volume
  let c := cubicChain volume period (quarterPosition period (sineSection period x) x)
  [ volume * 4292, volume * 1416, volume * 15708, k.a * 64, k.b * 16, k.c * 4, x * 4,
    c.m1, c.m2, c.m3, c.m4, c.m5, c.m6 ]

/-- The values R73 lists for each operation. -/
def int32Values (op : Op) (volume period phase : Nat) : List Int :=
  match op with
  | .sawtooth => [position period phase * volume]
  | .triangle =>
    if position period phase < halfPeriod period then [position period phase * 2 * volume]
    else [(period - position period phase) * 2 * volume]
  | .square => []
  | .sine => sineInt32Values volume period phase
  | .test =>
    ((period * 7 : Nat) : Int) ::
      (sineInt32Values volume (innerPeriod period) phase ++
        sineInt32Values volume period (modulatedPhase volume period phase))

/-- `INT32_SAFE(op, volume, period, phase)` (R73): the command does not fault and every listed value fits. -/
def int32Safe (op : Op) (volume : Volume) (period : Period) (phase : Phase) : Bool :=
  match wave (opNumber op) volume period phase with
  | .fault _ => false
  | .sample _ => (int32Values op volume.toNat period.toNat phase.toNat).all fitsInt32

/-- A value kept in a signed 32-bit variable: the low 32 bits, read as two's complement. -/
def wrap32 (r : Int) : Int := (BitVec.ofInt 32 r).toInt

/-- `sawtooth_raw` with 32-bit intermediates. -/
def sawtoothRaw32 (volume period phase : Nat) : Int :=
  wrap32 (wrap32 (tdiv (wrap32 (position period phase * volume)) period) - tdiv volume 2)

/-- `triangle_raw` with 32-bit intermediates. -/
def triangleRaw32 (volume period phase : Nat) : Int :=
  if position period phase < halfPeriod period then
    wrap32 (wrap32 (tdiv (wrap32 (wrap32 (position period phase * 2) * volume)) period) - tdiv volume 2)
  else
    wrap32 (wrap32 (tdiv (wrap32 (wrap32 ((period - position period phase) * 2) * volume)) period) - tdiv volume 2)

/-- One factor `xq / p` of a chain, with 32-bit intermediates: multiply, then divide (R104). -/
def chainStep32 (p : Nat) (xq v : Int) : Int := wrap32 (tdiv (wrap32 (v * xq)) p)

/-- A coefficient with 32-bit intermediates. -/
def coefficient32 (volume : Nat) (literal : Int) : Int :=
  wrap32 (tdiv (wrap32 (volume * literal)) Config.coeffScale)

/-- `cubic` with 32-bit intermediates. -/
def cubic32 (volume p : Nat) (xq : Int) : Int :=
  let a := wrap32 (coefficient32 volume Config.coeffA * 64)
  let b := wrap32 (coefficient32 volume Config.coeffB * 16)
  let c := wrap32 (coefficient32 volume Config.coeffC * 4)
  let t3 := chainStep32 p xq (chainStep32 p xq (chainStep32 p xq a))
  let t2 := chainStep32 p xq (chainStep32 p xq b)
  let t1 := chainStep32 p xq c
  wrap32 (wrap32 (t3 + t2) + t1)

/-- `sine_raw` with 32-bit intermediates. -/
def sineRaw32 (volume period phase : Nat) : Int :=
  let x := position period phase
  let q := tdiv (wrap32 (x * 4)) period
  wrap32 (applySectionSign q (cubic32 volume period (quarterPosition period q x)))

/-- `test_raw` with 32-bit intermediates. -/
def testRaw32 (volume period phase : Nat) : Int :=
  let q := trunc16 (tdiv (wrap32 (period * 7)) 5)
  let inner := narrow16 (sineRaw32 volume q phase)
  sineRaw32 volume period (trunc32 (phase + inner.toInt))

/-- The raw result of an operation with signed 32-bit intermediates. -/
def rawOf32 (op : Op) (volume period phase : Nat) : Int :=
  match op with
  | .sawtooth => sawtoothRaw32 volume period phase
  | .triangle => triangleRaw32 volume period phase
  | .square => squareRaw volume period phase
  | .sine => sineRaw32 volume period phase
  | .test => testRaw32 volume period phase

end Sys2Proof.Machine
end

