-- ==== Sys2Proof/Machine/Ports.lean ====
section
/-! DEFINITION. What the host and the platform observe: the read-only outputs `SAMPLE` and `STATUS` (R11, R38), the level
output `fault` (R32), and the streams delivered on `resp` and `trace` (R33, R34). Reading has no side effect (R38). -/

namespace Sys2Proof.Machine

/-- The host reads `SAMPLE`: nothing while `STATUS.VALID` = 0 (R12, R157 (b); log 12). -/
def readSample (s : State) : Option Sample := if statusValid s.block.status then s.block.sample else none

/-- The host reads `STATUS` (R11). -/
def readStatus (s : State) : Status := s.block.status

/-- The level output `fault`: the value of `STATUS.FAULT` at every instant (R32). -/
def faultOutput (s : State) : Bool := statusFault s.block.status

/-- The cause `STATUS.CAUSE` names, none for NONE (R18). -/
def recordedCause (s : State) : Option FaultCause := causeOfCode (statusCause s.block.status)

/-- The samples among delivered items, in order. -/
def responsesOf : List Output → List Sample
  | [] => []
  | .resp x :: rest => x :: responsesOf rest
  | .trace _ _ :: rest => responsesOf rest

/-- The trace events among delivered items, in order. -/
def tracesOf : List Output → List (Period × Phase)
  | [] => []
  | .resp _ :: rest => tracesOf rest
  | .trace p ph :: rest => (p, ph) :: tracesOf rest

/-- The response stream so far (R33). -/
def responses (s : State) : List Sample := responsesOf s.outputs

/-- The trace stream so far (R34). -/
def traces (s : State) : List (Period × Phase) := tracesOf s.outputs

end Sys2Proof.Machine
end

