-- ==== Sys2Proof/Safety.lean ====
section
/-! DEFINITION. The terms claims use: the invariants of the wrapper state (R12), what software owes the block (R154), and
what a run delivers (R163). -/

namespace Sys2Proof.Machine

/-- The three invariants of R12: `VALID` = 1 exactly when `SAMPLE` has a value, `FAULT` = 1 only with `VALID` = 0, and
`FAULT` = 0 exactly when `CAUSE` = 0. -/
def BlockConsistent (b : Block) : Prop :=
  (statusValid b.status = true ↔ b.sample.isSome = true) ∧
  (statusFault b.status = true → statusValid b.status = false) ∧
  (statusFault b.status = false ↔ statusCause b.status = 0)

/-- While `VALID` = 1, `SAMPLE` is the last response delivered (R16, R163). -/
def SampleIsLastResponse (s : State) : Prop :=
  statusValid s.block.status = true → (responses s).getLast? = s.block.sample

/-- The state after a command that delivers the sample `x` in a state `s`, all of it spelt out (R81): `SAMPLE` is `x`,
`VALID` is 1, `FAULT` and `CAUSE` are as before, the events `before` and then the response are delivered, and nothing else
changes. -/
def afterSample (s : State) (before : List Output) (x : Sample) : State :=
  { block :=
      { sample := some x
        status := mkStatus true (statusFault s.block.status) (statusCause s.block.status) }
    inputs := s.inputs
    outputs := s.outputs ++ (before ++ [.resp x])
    traceEnable := s.traceEnable }

/-- The state after a fault with cause `c` in a state `s`, all of it spelt out (R124): `SAMPLE` has no value, `VALID` is 0,
`FAULT` is 1, `CAUSE` is the code of `c`, and nothing else changes. -/
def afterFault (s : State) (c : FaultCause) : State :=
  { block := { sample := none, status := mkStatus false true (causeCode c) }
    inputs := s.inputs
    outputs := s.outputs
    traceEnable := s.traceEnable }

/-- The state after a reset in a state `s` with the events `rest` still to come (R150): both registers have their reset
values, and nothing else changes. -/
def afterReset (s : State) (rest : List Input) : State :=
  { block := { sample := none, status := 0 }
    inputs := rest
    outputs := s.outputs
    traceEnable := s.traceEnable }

/-- The events a `sawtooth` command emits before its response (R34). -/
def traceBefore (s : State) (period : Period) (phase : Phase) : List Output :=
  if s.traceEnable then [.trace period phase] else []

/-- The value of a raw result after narrowing, by the words of R74: `u` where `u = raw mod 65536` is at most 32767, and
`u - 65536` otherwise. -/
def narrowedValue (raw : Int) : Int := if raw % 65536 ≤ 32767 then raw % 65536 else raw % 65536 - 65536

/-- The cubic of R104 in natural numbers, for a quarter position that is not negative: the magnitudes of the three terms
by floor divisions, the cubic and the square term subtracted because `A` and `B` are not positive (R101, R104). -/
def cubicByFloors (volume p xq : Nat) : Int :=
  ((volume * 15708 / 10000 * 4 * xq / p : Nat) : Int)
    - ((volume * 1416 / 10000 * 16 * xq / p * xq / p : Nat) : Int)
    - ((volume * 4292 / 10000 * 64 * xq / p * xq / p * xq / p : Nat) : Int)

/-- A command the contract allows (R82, R154): `period > 0`, and for `test` also `period` not 46812. -/
def DutyKept (i : Instr) : Prop := i.period ≠ 0 ∧ (i.op = .test → i.period ≠ 46812)

/-- `wave` of a command word's four fields (R10, R80). -/
def waveOfWord (w : CmdWord) : Result := wave (opField w) (volumeField w) (periodField w) (phaseField w)

/-- What a completed command delivers (R81): the trace event of a `sawtooth` when tracing, then the response. -/
def deliveredBy (traceEnable : Bool) (w : CmdWord) (x : Sample) : List Output :=
  (if traceEnable = true ∧ opField w = 0 then [.trace (periodField w) (phaseField w)] else []) ++ [.resp x]

/-- What commands that complete deliver, in order; a faulting command delivers nothing (R41, R163). -/
def deliveredByAll (traceEnable : Bool) : List CmdWord → List Output
  | [] => []
  | w :: ws =>
    (match waveOfWord w with
      | .sample x => deliveredBy traceEnable w x
      | .fault _ => []) ++ deliveredByAll traceEnable ws

/-- Commands that all complete. -/
def AllComplete (ws : List CmdWord) : Prop := ∀ w ∈ ws, ∃ x, waveOfWord w = .sample x

/-- `k` steps, one after the other, stopping at the first fault or refusal (R163). -/
def stepMany : Nat → State → Host.Outcome State Fault Refusal
  | 0, s => .next s
  | k + 1, s =>
    match step s with
    | .next t => stepMany k t
    | .fault r => .fault r
    | .refused r => .refused r

end Sys2Proof.Machine
end

