-- ==== Sys2Proof/Certificates/Slice0/Obligations.lean ====
section
/-! DEFINITION. The statements for the provers. `afterSample`, `afterFault` and `afterReset` (Safety.lean) spell out a whole
next state, so a conclusion `= .next (afterSample …)` is at once the result, the completion and the frame: every register,
every event still to come, every item delivered before and the build parameter are in it. The hardware has no memory (R35)
and no program counter (R14), so a frame has no byte and no pc to name. -/

open Sys2Proof Sys2Proof.Machine

/-! ### Reset, taking a fault, the step -/

/-- R22: the state right after reset, and that it accepts the next command. -/
def Obligations.ResetLeavesSpecValues : Prop :=
  State.reset.block.sample = none ∧
  statusValid State.reset.block.status = false ∧
  statusFault State.reset.block.status = false ∧
  statusCause State.reset.block.status = 0 ∧
  halted State.reset = false ∧ faultOutput State.reset = false ∧ readSample State.reset = none ∧
  ∀ w i, decode w = .instr i → step (presentWord w State.reset) = exec i State.reset

/-- R124: what taking a fault writes, and that it changes nothing else. -/
def Obligations.TakingAFaultWritesStatus : Prop :=
  ∀ (c : FaultCause) (s : State),
    statusFault (raiseFault c s).block.status = true ∧
    statusCause (raiseFault c s).block.status = causeCode c ∧
    statusValid (raiseFault c s).block.status = false ∧
    (raiseFault c s).block.sample = none ∧
    (raiseFault c s).outputs = s.outputs ∧
    (raiseFault c s).inputs = s.inputs ∧
    (raiseFault c s).traceEnable = s.traceEnable ∧
    halted (raiseFault c s) = true ∧ faultOutput (raiseFault c s) = true ∧ recordedCause (raiseFault c s) = some c

/-- R31, R81: a step of a block that is not halted runs the instruction that the presented word decodes to, in the state in
which the word is no longer presented. -/
def Obligations.StepRunsDecodedInstruction : Prop :=
  ∀ (s : State) (w : CmdWord) (rest : List Input) (i : Instr),
    halted s = false → s.inputs = .command w :: rest → decode w = .instr i → i.wellFormed = true →
    step s = exec i { s with inputs := rest }

/-- The model's own interface (log 6): the word that `withFetchWord` presents is the one the next step runs. -/
def Obligations.FetchWordIsRunNext : Prop :=
  ∀ (s : State) (nbits w : Nat) (i : Instr),
    halted s = false → decodeTableWord nbits w = some i → step (s.withFetchWord nbits w) = exec i s

/-- R136, and the model's choice of log 4 that an idle block steps to itself. -/
def Obligations.IdleBlockKeepsItsState : Prop :=
  ∀ s : State, halted s = false → s.inputs = [] → step s = .next s

/-- R127, R128, R150: a halted block runs no command; with no reset to come it has no step (that this is the fault `halted`
is the model's choice of log 5); a step it has is a reset, which consumes no presented word and delivers nothing. That the
reset overtakes the words presented to the halted block, as `t.inputs = s.inputs.erase .reset` says, is the model's reading
of R127 (log 2). -/
def Obligations.HaltedBlockHasNoStep : Prop :=
  ∀ s : State, statusFault s.block.status = true →
    (∀ i, exec i s = .fault .halted) ∧
    (.reset ∉ s.inputs → step s = .fault .halted) ∧
    (∀ t, step s = .next t →
      .reset ∈ s.inputs ∧ t.inputs = s.inputs.erase .reset ∧ t.outputs = s.outputs ∧
      t.block = { sample := none, status := 0 })

/-- R150, R151: reset gives both registers their reset values and changes nothing else, before a command or while halted.
That a reset overtakes the words presented to a halted block is the model's reading of R127 (log 2). -/
def Obligations.ResetClearsTheBlock : Prop :=
  (∀ (s : State) (rest : List Input), halted s = false → s.inputs = .reset :: rest →
    step s = .next (afterReset s rest)) ∧
  (∀ (s : State) (a b : List Input), halted s = true → (∀ i ∈ a, i ≠ .reset) → s.inputs = a ++ .reset :: b →
    step s = .next (afterReset s (a ++ b)))

/-- R81 with R80: the step of a block that is not halted on a presented word is `wave` of the word's four fields, and then
either the fault or the sample with everything that goes with it. -/
def Obligations.StepRefinesWave : Prop :=
  ∀ (s : State) (w : CmdWord) (rest : List Input), halted s = false → s.inputs = .command w :: rest →
    step s =
      match wave (opField w) (volumeField w) (periodField w) (phaseField w) with
      | .fault c => .next (afterFault (withInputs rest s) c)
      | .sample x =>
        .next (afterSample (withInputs rest s)
          (if opField w = 0 ∧ s.traceEnable = true then [.trace (periodField w) (phaseField w)] else []) x)

/-- R10, R20, R156: the result of a command depends on the command alone, and it meets the machine in every state in the
same way. -/
def Obligations.ResultDependsOnCommandOnly : Prop :=
  ∀ i : Instr, ∃ r : Result, ∀ s : State, halted s = false →
    exec i s =
      match r with
      | .fault c => .next (afterFault s c)
      | .sample x => .next (afterSample s (if i.op = .sawtooth then traceBefore s i.period i.phase else []) x)

/-- R161: while `FAULT` = 0 the block never hangs: it has a step, and a presented word is consumed by it. That a block with
nothing presented has a step too, to its own state, is the model's choice of log 4. -/
def Obligations.BlockNeverHangsUnlessHalted : Prop :=
  ∀ s : State, statusFault s.block.status = false →
    ∃ t, step s = .next t ∧ ∀ w rest, s.inputs = .command w :: rest → t.inputs = rest

/-! ### Invariants -/

/-- The two invariants below hold at reset (R12, R22). -/
def Obligations.ResetSatisfiesTheInvariants : Prop :=
  BlockConsistent State.reset.block ∧ SampleIsLastResponse State.reset

/-- R12: the three invariants of the wrapper state are kept by every step. -/
def Obligations.StepKeepsBlockConsistent : Prop :=
  ∀ s t : State, BlockConsistent s.block → step s = .next t → BlockConsistent t.block

/-- R16, R163: while `VALID` = 1, `SAMPLE` is the last response delivered; every step keeps this. -/
def Obligations.StepKeepsSampleIsLastResponse : Prop :=
  ∀ s t : State, SampleIsLastResponse s → step s = .next t → SampleIsLastResponse t

/-- R6, R21: no step changes the build parameter; R33: an item delivered is never recalled or reordered (log 3). -/
def Obligations.StepKeepsTraceEnableAndDelivered : Prop :=
  ∀ s t : State, step s = .next t → t.traceEnable = s.traceEnable ∧ s.outputs <+: t.outputs

/-! ### Faults and delivery of a presented word -/

/-- R125: which fault a word takes when several causes apply, and that a word to which none applies completes (R82). -/
def Obligations.FaultPriority : Prop :=
  ∀ (s : State) (w : CmdWord) (rest : List Input), halted s = false → s.inputs = .command w :: rest →
    (5 ≤ (opField w).toNat → step s = .next (afterFault (withInputs rest s) .illegalOp)) ∧
    ((opField w).toNat ≤ 4 → periodField w = 0 →
      step s = .next (afterFault (withInputs rest s) .zeroPeriod)) ∧
    (opField w = 4 → periodField w = 46812 →
      step s = .next (afterFault (withInputs rest s) .zeroInnerPeriod)) ∧
    ((opField w).toNat ≤ 4 → periodField w ≠ 0 → (opField w = 4 → periodField w ≠ 46812) →
      ∃ x before, step s = .next (afterSample (withInputs rest s) before x))

/-- R121: every operation faults on a zero period, whatever the other operands. -/
def Obligations.ZeroPeriodFaultsInEveryOperation : Prop :=
  ∀ (i : Instr) (s : State), halted s = false → i.period = 0 → exec i s = .next (afterFault s .zeroPeriod)

/-- R116, R123: the inner period of `test` is 0 for one non-zero period only, and there the command faults. -/
def Obligations.ZeroInnerPeriodFaults : Prop :=
  ∀ (v : Volume) (p : Period) (ph : Phase) (s : State), halted s = false → p ≠ 0 →
    (trunc16 (tdiv (p.toNat * 7) 5) = 0 ↔ p = 46812) ∧
    (trunc16 (tdiv (p.toNat * 7) 5) = 0 → exec (.test v p ph) s = .next (afterFault s .zeroInnerPeriod))

/-- R82, R154: the commands that produce a sample are exactly those with `period > 0`, and for `test` also `period` not 46812;
every other command takes a fault. With each the whole next state: only a `sawtooth` delivers anything before its response,
its trace event when tracing is on (R34). -/
def Obligations.DutyKeptExactlyWhenCommandCompletes : Prop :=
  ∀ (i : Instr) (s : State), halted s = false →
    (DutyKept i → ∃ x, exec i s =
      .next (afterSample s (if i.op = .sawtooth then traceBefore s i.period i.phase else []) x)) ∧
    (¬ DutyKept i → ∃ c, exec i s = .next (afterFault s c))

/-- R33, R129, R41: an accepted word delivers exactly one response, with `SAMPLE` and `STATUS` changed in the same step, or
it faults and delivers nothing at all. -/
def Obligations.AcceptedWordDeliversOnceOrFaults : Prop :=
  ∀ (s t : State) (w : CmdWord) (rest : List Input), halted s = false → s.inputs = .command w :: rest →
    step s = .next t →
    (∃ x, responses t = responses s ++ [x] ∧ readSample t = some x ∧ statusValid t.block.status = true ∧
      faultOutput t = false) ∨
    (t.outputs = s.outputs ∧ t.block.sample = none ∧ statusValid t.block.status = false ∧ faultOutput t = true)

/-- R34, R135: a trace event comes from a completing `sawtooth` only, when tracing is on; it holds the two fields unchanged,
and within the command it stands before the response (R41). -/
def Obligations.OnlyCompletingSawtoothTraces : Prop :=
  ∀ (s t : State) (w : CmdWord) (rest : List Input), halted s = false → s.inputs = .command w :: rest →
    step s = .next t →
    traces t = traces s ++
      (if s.traceEnable = true ∧ opField w = 0 ∧ periodField w ≠ 0 then [(periodField w, phaseField w)] else []) ∧
    (traces t ≠ traces s → ∃ x, t.outputs = s.outputs ++ [.trace (periodField w) (phaseField w), .resp x])

/-! ### The linear waveforms -/

/-- R90: `sawtooth`, with its fault, its trace event and its range; the sample is the raw result itself. -/
def Obligations.SawtoothResult : Prop :=
  ∀ (v : Volume) (p : Period) (ph : Phase) (s : State), halted s = false →
    (p = 0 → exec (.sawtooth v p ph) s = .next (afterFault s .zeroPeriod)) ∧
    (p ≠ 0 → ∃ x : Sample, exec (.sawtooth v p ph) s = .next (afterSample s (traceBefore s p ph) x) ∧
      x.toInt = ((ph.toNat % p.toNat * v.toNat / p.toNat : Nat) : Int) - ((v.toNat / 2 : Nat) : Int) ∧
      -((v.toNat / 2 : Nat) : Int) ≤ x.toInt ∧
      x.toInt ≤ (((p.toNat - 1) * v.toNat / p.toNat : Nat) : Int) - ((v.toNat / 2 : Nat) : Int) ∧
      x.toInt ≤ 32767)

/-- R90: the ramp of `sawtooth` is non-decreasing in the position, and at position 0 it is at its bottom. -/
def Obligations.SawtoothRampIsMonotone : Prop :=
  ∀ v p ph ph' : Nat, 0 < p →
    (ph % p ≤ ph' % p → sawtoothRaw v p ph ≤ sawtoothRaw v p ph') ∧
    (ph % p = 0 → sawtoothRaw v p ph = -((v / 2 : Nat) : Int))

/-- R91: `triangle`, with its fault and both arms; the sample is the narrowed raw result (R74). -/
def Obligations.TriangleResult : Prop :=
  ∀ (v : Volume) (p : Period) (ph : Phase) (s : State), halted s = false →
    (p = 0 → exec (.triangle v p ph) s = .next (afterFault s .zeroPeriod)) ∧
    (p ≠ 0 → ∃ x : Sample, exec (.triangle v p ph) s = .next (afterSample s [] x) ∧
      x.toInt = narrowedValue
        (if ph.toNat % p.toNat < p.toNat / 2 then
          ((ph.toNat % p.toNat * 2 * v.toNat / p.toNat : Nat) : Int) - ((v.toNat / 2 : Nat) : Int)
        else
          (((p.toNat - ph.toNat % p.toNat) * 2 * v.toNat / p.toNat : Nat) : Int) - ((v.toNat / 2 : Nat) : Int)))

/-- R91: the raw range of `triangle`: its minimum, its value at `x = half` for even and odd periods, the bound elsewhere,
and that nothing wraps for volumes up to 21844. -/
def Obligations.TrianglePeakAndRange : Prop :=
  ∀ v p ph : Nat, 0 < p →
    -((v / 2 : Nat) : Int) ≤ triangleRaw v p ph ∧
    (ph % p = 0 → 2 ≤ p → triangleRaw v p ph = -((v / 2 : Nat) : Int)) ∧
    (ph % p = p / 2 → triangleRaw v p ph =
      (v : Int) + (if p % 2 = 0 then 0 else ((v / p : Nat) : Int)) - ((v / 2 : Nat) : Int)) ∧
    (ph % p ≠ p / 2 → 0 < v → triangleRaw v p ph ≤ (v : Int) - 1 - ((v / 2 : Nat) : Int)) ∧
    (v ≤ 21844 → (narrow16 (triangleRaw v p ph)).toInt = triangleRaw v p ph)

/-- R92: `square`, with its fault and its two values. -/
def Obligations.SquareResult : Prop :=
  ∀ (v : Volume) (p : Period) (ph : Phase) (s : State), halted s = false →
    (p = 0 → exec (.square v p ph) s = .next (afterFault s .zeroPeriod)) ∧
    (p ≠ 0 → ∃ x : Sample, exec (.square v p ph) s = .next (afterSample s [] x) ∧
      x.toInt = (if ph.toNat % p.toNat < p.toNat / 2 then ((v.toNat / 4 : Nat) : Int)
        else -((v.toNat / 4 : Nat) : Int)))

/-! ### The sine engine -/

/-- R101: the coefficients as floors, their ranges for 16-bit volumes, and their sum. -/
def Obligations.CoefficientsAreTruncatedProducts : Prop :=
  ∀ v : Nat,
    (coefficients v).a = -((v * 4292 / 10000 : Nat) : Int) ∧
    (coefficients v).b = -((v * 1416 / 10000 : Nat) : Int) ∧
    (coefficients v).c = ((v * 15708 / 10000 : Nat) : Int) ∧
    ((coefficients v).a + (coefficients v).b + (coefficients v).c = v ∨
      (coefficients v).a + (coefficients v).b + (coefficients v).c = v + 1) ∧
    (v ≤ 65535 → -28127 ≤ (coefficients v).a ∧ -9279 ≤ (coefficients v).b ∧ (coefficients v).c ≤ 102942)

/-- R102: the section is 0, 1, 2 or 3, and section `q` holds exactly the positions with `q * p <= 4 * x < (q + 1) * p`. -/
def Obligations.SectionIsTheQuarterOfThePosition : Prop :=
  ∀ (p : Nat) (x : Int), 0 ≤ x → x < p →
    0 ≤ sineSection p x ∧ sineSection p x ≤ 3 ∧
    ∀ q : Int, sineSection p x = q ↔ (q * p ≤ 4 * x ∧ 4 * x < (q + 1) * p)

/-- R103: the quarter position is never negative and at most `tdiv(p, 4) + 1`, which it reaches in section 2 with
`p` = 3 modulo 4 only; for even periods the mirror is exact. -/
def Obligations.QuarterPositionBounds : Prop :=
  ∀ p x : Nat, x < p →
    0 ≤ quarterPosition p (sineSection p x) x ∧
    quarterPosition p (sineSection p x) x ≤ ((p / 4 : Nat) : Int) + 1 ∧
    quarterPosition p (sineSection p x) x ≤ p ∧
    (p ≤ 65535 → quarterPosition p (sineSection p x) x ≤ 16384) ∧
    (quarterPosition p (sineSection p x) x = ((p / 4 : Nat) : Int) + 1 → sineSection p x = 2 ∧ p % 4 = 3) ∧
    (p % 2 = 0 → x + p / 2 < p →
      quarterPosition p (sineSection p ((x + p / 2 : Nat) : Int)) ((x + p / 2 : Nat) : Int) =
        quarterPosition p (sineSection p x) x)

/-- R104: the chain of truncating divisions, its negative terms included, is the chain of floors of magnitudes. -/
def Obligations.CubicIsTheFloorChain : Prop :=
  ∀ v p xq : Nat, 0 < p → cubic v p xq = cubicByFloors v p xq

/-- R72: the widths that make exact arithmetic possible in hardware. -/
def Obligations.DatapathWidths : Prop :=
  ∀ v p x : Nat, v ≤ 65535 → p ≤ 65535 → x < p →
    x * v ≤ 4294770690 ∧
    (x < p / 2 → x * 2 * v ≤ 4294705155) ∧
    (p / 2 ≤ x → (p - x) * 2 * v ≤ 4294901760) ∧
    v * 15708 ≤ 1029423780 ∧
    (∀ c : CubicChain, c = cubicChain v p (quarterPosition p (sineSection p x) x) →
      |c.m1| ≤ 29493297152 ∧ |c.m2| ≤ 29493297152 ∧ |c.m3| ≤ 29493297152 ∧
      |c.m4| ≤ 29493297152 ∧ |c.m5| ≤ 29493297152 ∧ |c.m6| ≤ 29493297152) ∧
    |sineRaw v p x| ≤ 2360360

/-- R106 with R101 to R105: `sine`, with its fault, quarter by quarter, each quarter given by its inequalities. -/
def Obligations.SineResult : Prop :=
  ∀ (v : Volume) (p : Period) (ph : Phase) (s : State), halted s = false →
    (p = 0 → exec (.sine v p ph) s = .next (afterFault s .zeroPeriod)) ∧
    (p ≠ 0 → ∃ smp : Sample, exec (.sine v p ph) s = .next (afterSample s [] smp) ∧
      ∀ P x h : Nat, P = p.toNat → x = ph.toNat % P → h = P / 2 →
        (4 * x < P → smp.toInt = narrowedValue (cubicByFloors v.toNat P x)) ∧
        (P ≤ 4 * x → 4 * x < 2 * P → ∃ xq : Nat, (xq : Int) = (h : Int) - x ∧
          smp.toInt = narrowedValue (cubicByFloors v.toNat P xq)) ∧
        (2 * P ≤ 4 * x → 4 * x < 3 * P → ∃ xq : Nat, (xq : Int) = (x : Int) - h ∧
          smp.toInt = narrowedValue (-cubicByFloors v.toNat P xq)) ∧
        (3 * P ≤ 4 * x → ∃ xq : Nat, (xq : Int) = (h : Int) - ((x : Int) - h) ∧
          smp.toInt = narrowedValue (-cubicByFloors v.toNat P xq)))

/-- R107 (a), (b): the zero crossing, and the exact peak and trough of periods that 4 divides. -/
def Obligations.SineZeroCrossingAndPeak : Prop :=
  ∀ v p ph : Nat, 0 < p →
    (ph % p = 0 → sineRaw v p ph = 0) ∧
    (4 ∣ p → ph % p = p / 4 → sineRaw v p ph = v ∨ sineRaw v p ph = v + 1) ∧
    (4 ∣ p → ph % p = 3 * p / 4 → sineRaw v p ph = -v ∨ sineRaw v p ph = -(v + 1))

/-- R107 (d): half-wave antisymmetry is exact on the raw results of even periods. -/
def Obligations.SineHalfWaveAntisymmetry : Prop :=
  ∀ v p ph : Nat, 0 < p → p % 2 = 0 → sineRaw v p (ph + p / 2) = -sineRaw v p ph

/-- R107 (e), (f): the wave is silent for periods 1 and 2, and for volume 1 it is the sign-carrying quotient of `4 * xq`. -/
def Obligations.SineDegenerateCases : Prop :=
  (∀ v p ph : Nat, p = 1 ∨ p = 2 → sineRaw v p ph = 0) ∧
  (∀ p ph : Nat, 0 < p → ∀ q : Int, q = sineSection p (position p ph) →
    sineRaw 1 p ph = applySectionSign q (tdiv (4 * quarterPosition p q (position p ph)) p))

/-! ### The test operation -/

/-- R115: the inner period, below and above the wrap. -/
def Obligations.InnerPeriodFormula : Prop :=
  ∀ p : Nat, p ≤ 65535 →
    innerPeriod p = p * 7 / 5 % 65536 ∧
    (1 ≤ p → p ≤ 46811 → innerPeriod p = p * 7 / 5 ∧ 1 ≤ innerPeriod p) ∧
    (46812 ≤ p → innerPeriod p + 65536 = p * 7 / 5)

/-- R118 with R115 to R117: `test` as a composition of two `sine` evaluations, the inner one narrowed and added to the phase
as a 32-bit number. -/
def Obligations.TestResult : Prop :=
  ∀ (v : Volume) (p : Period) (ph : Phase) (s : State), halted s = false →
    (p = 0 → exec (.test v p ph) s = .next (afterFault s .zeroPeriod)) ∧
    (p = 46812 → exec (.test v p ph) s = .next (afterFault s .zeroInnerPeriod)) ∧
    (p ≠ 0 → p ≠ 46812 → ∃ inner smp : Sample,
      wave 3 v (BitVec.ofNat 16 (p.toNat * 7 / 5)) ph = .sample inner ∧
      wave 3 v p (ph + inner.signExtend 32) = .sample smp ∧
      exec (.test v p ph) s = .next (afterSample s [] smp))

/-- R118: away from the wraps, `test` repeats after a common multiple of the period and the inner period. -/
def Obligations.TestRepeatsAfterCommonMultiple : Prop :=
  ∀ v p ph len : Nat, 0 < p → 0 < innerPeriod p → p ∣ len → innerPeriod p ∣ len →
    32768 ≤ ph → ph + len + 32767 ≤ 4294967295 → testRaw v p (ph + len) = testRaw v p ph

/-! ### Rules over all operations -/

/-- R75: in every operation but `test`, two phases with the same position give the same result. -/
def Obligations.PositionDeterminesResult : Prop :=
  ∀ (op : OpField) (v : Volume) (p : Period) (ph ph' : Phase), op.toNat ≤ 3 →
    ph.toNat % p.toNat = ph'.toNat % p.toNat → wave op v p ph = wave op v p ph'

/-- R76: periodicity in `period`, exact for `sawtooth`, `triangle`, `square` and `sine`; `test` does not have it. -/
def Obligations.PeriodicExceptTest : Prop :=
  (∀ (op : OpField) (v : Volume) (p : Period) (ph : Phase), op.toNat ≤ 3 →
    ph.toNat + p.toNat ≤ 4294967295 → wave op v p (ph + p.setWidth 32) = wave op v p ph) ∧
  (∃ (v : Volume) (p : Period) (ph : Phase), p ≠ 0 ∧ ph.toNat + p.toNat ≤ 4294967295 ∧
    wave 4 v p (ph + p.setWidth 32) ≠ wave 4 v p ph)

/-- R52: volume 0 gives the sample 0 in every operation that does not fault. -/
def Obligations.ZeroVolumeIsSilent : Prop :=
  ∀ (op : OpField) (p : Period) (ph : Phase), op.toNat ≤ 4 → p ≠ 0 → (op = 4 → p ≠ 46812) →
    wave op 0 p ph = .sample 0

/-- R70: the laws of truncating division. -/
def Obligations.DivisionTruncatesTowardZero : Prop :=
  ∀ a b : Int, b ≠ 0 →
    tdiv a b = a.sign * b.sign * ((a.natAbs / b.natAbs : Nat) : Int) ∧
    tdiv (-a) b = -tdiv a b ∧
    |tdiv a b| * |b| ≤ |a| ∧
    (0 ≤ a → 0 < b → tdiv a b = a / b) ∧
    (0 ≤ a → 0 ≤ a - b * tdiv a b ∧ a - b * tdiv a b < |b|) ∧
    (a ≤ 0 → a - b * tdiv a b ≤ 0 ∧ -|b| < a - b * tdiv a b)

/-- R74: narrowing keeps the low 16 bits, keeps what fits, and is off by a multiple of 65536 otherwise. -/
def Obligations.NarrowingWraps : Prop :=
  ∀ r : Int,
    (narrow16 r).toInt = narrowedValue r ∧
    (-32768 ≤ r → r ≤ 32767 → (narrow16 r).toInt = r) ∧
    (65536 : Int) ∣ (narrow16 r).toInt - r ∧
    -32768 ≤ (narrow16 r).toInt ∧ (narrow16 r).toInt ≤ 32767

/-- R73: on `INT32_SAFE` commands an implementation with signed 32-bit intermediates computes what the block computes.
Which intermediates that implementation wraps is the model's reading of R73 (log 7). -/
def Obligations.Int32SafeImplementationAgrees : Prop :=
  ∀ (op : Op) (v : Volume) (p : Period) (ph : Phase), int32Safe op v p ph = true →
    rawOf32 op v.toNat p.toNat ph.toNat = rawOf (opNumber op).toNat v.toNat p.toNat ph.toNat

/-- R73: the sufficient conditions for `INT32_SAFE`. -/
def Obligations.Int32SafeSufficientConditions : Prop :=
  ∀ (v : Volume) (p : Period) (ph : Phase), p ≠ 0 →
    (v.toNat * (p.toNat - 1) ≤ 2147483647 → int32Safe .sawtooth v p ph = true) ∧
    (v.toNat * (p.toNat + 1) ≤ 2147483647 → int32Safe .triangle v p ph = true) ∧
    int32Safe .square v p ph = true ∧
    (v.toNat * (p.toNat + 4) ≤ 312000000 → int32Safe .sine v p ph = true)

/-! ### Encoding and text -/

/-- R51, R54: a few words of spec/95_test_vectors.md decode to the commands they stand for. -/
def Obligations.SpecWordsDecode : Prop :=
  decode 0x003E8006400000019 = .instr (.sawtooth 1000 100 25) ∧
  decode 0x107D000C800000032 = .instr (.triangle 2000 200 50) ∧
  decode 0x203E800640000003C = .instr (.square 1000 100 60) ∧
  decode 0x3FFFFFFFF0000BFFF = .instr (.sine 65535 65535 49151) ∧
  decode 0x403E8B6DC00000005 = .instr (.test 1000 46812 5) ∧
  decode 0x503E8006400000019 = .illegalOp 5 ∧ decode 0x7FFFFFFFFFFFFFFFF = .illegalOp 7

/-- R57, R62: encoding then decoding, and decoding then encoding, are the identity. -/
def Obligations.DecodeAndEncodeAreInverse : Prop :=
  (∀ i : Instr, i.wellFormed = true → decode (encode i) = .instr i) ∧
  (∀ (w : CmdWord) (i : Instr), decode w = .instr i → encode i = w) ∧
  (∀ w : CmdWord, (opField w).toNat ≤ 4 → ∃ i, decode w = .instr i)

/-- R50: the command word of an instruction as a number. -/
def Obligations.EncodedWordAsNumber : Prop :=
  ∀ i : Instr, (encode i).toNat =
    (opNumber i.op).toNat * 2 ^ 64 + i.volume.toNat * 2 ^ 48 + i.period.toNat * 2 ^ 32 + i.phase.toNat

/-- R54: a word selects by match and mask exactly the row of the operation it decodes to, and no row when it is illegal. -/
def Obligations.OneRowSelectsEachOperation : Prop :=
  ∀ w : CmdWord, rowsSelected w =
    match decode w with
    | .instr i => [i.op]
    | .illegalOp _ => []

/-- R57: the words that decode to illegal are the 3 * 2^64 with `OP` in 5 to 7, and no others. -/
def Obligations.IllegalWordsAreTheReservedOnes : Prop :=
  ∀ w : CmdWord, (∃ op, decode w = .illegalOp op) ↔ 5 * 2 ^ 64 ≤ w.toNat

/-- R62: what the disassembler prints assembles to the word it came from, for all 2^67 words. -/
def Obligations.DisassemblyAssemblesBack : Prop :=
  ∀ w : CmdWord, assemble (disassemble w) = .word w

/-- R60: a line of decimal literals assembles to the command word when all three fit, and is an assembly error when one
does not; the call notation is a synonym. -/
def Obligations.AssemblerChecksLiterals : Prop :=
  ∀ (op : Op) (v p ph : Nat), v < 10 ^ 10 → p < 10 ^ 10 → ph < 10 ^ 10 →
    ∀ args : List Char, args = decimalText v ++ [',', ' '] ++ decimalText p ++ [',', ' '] ++ decimalText ph →
    ∀ res : AsmResult,
      res = (if v ≤ 65535 ∧ p ≤ 65535 ∧ ph ≤ 4294967295 then
        .word (encode (Instr.ofParts op (BitVec.ofNat 16 v) (BitVec.ofNat 16 p) (BitVec.ofNat 32 ph)))
        else .outOfRange) →
      assemble (mnemonicText op ++ [' '] ++ args) = res ∧
      assemble (mnemonicText op ++ ['('] ++ args ++ [')']) = res

/-! ### Many steps -/

/-- R163, completed: from any state that is not halted, commands that all complete are all accepted, and deliver their trace
events and responses in order. -/
def Obligations.CommandsCompleteInOrder : Prop :=
  ∀ (ws : List CmdWord) (s : State), halted s = false → s.inputs = ws.map .command → AllComplete ws →
    ∃ t : State, stepMany ws.length s = .next t ∧ t.inputs = [] ∧
      t.outputs = s.outputs ++ deliveredByAll s.traceEnable ws ∧ halted t = false ∧
      (ws ≠ [] → statusValid t.block.status = true ∧ readSample t = (responses t).getLast?)

/-- R163, faulted: the commands before the first that faults deliver their outputs, the faulting one is recorded, those after
it are never accepted, and no further step exists (R127). That the missing step is written as the fault `halted` is the
model's choice of log 5. -/
def Obligations.FirstFaultEndsTheCommands : Prop :=
  ∀ (pre post : List CmdWord) (w : CmdWord) (c : FaultCause) (s : State), halted s = false →
    s.inputs = (pre ++ w :: post).map .command → AllComplete pre → waveOfWord w = .fault c →
    stepMany (pre.length + 1) s = .next
      { block := { sample := none, status := mkStatus false true (causeCode c) }
        inputs := post.map .command
        outputs := s.outputs ++ deliveredByAll s.traceEnable pre
        traceEnable := s.traceEnable } ∧
    ∀ k : Nat, stepMany (pre.length + 1 + (k + 1)) s = .fault .halted
end

