-- ==== Sys2Proof/Laws/Status.lean ====
section
/-! SUPPORT. Laws of the `STATUS` fields (R11, R16 to R18): each field of a register built from its fields, and the
register as the value of its fields. -/

namespace Sys2Proof.Machine

@[simp] theorem statusValid_mkStatus (v f : Bool) (c : BitVec 2) : statusValid (mkStatus v f c) = v := by
  revert v f c; decide

@[simp] theorem statusFault_mkStatus (v f : Bool) (c : BitVec 2) : statusFault (mkStatus v f c) = f := by
  revert v f c; decide

@[simp] theorem statusCause_mkStatus (v f : Bool) (c : BitVec 2) : statusCause (mkStatus v f c) = c := by
  revert v f c; decide

/-- A register is the value of its three fields: all four bits are used, none is reserved (R18). -/
theorem mkStatus_fields (st : Status) : mkStatus (statusValid st) (statusFault st) (statusCause st) = st := by
  revert st; decide

@[simp] theorem mkStatus_reset : mkStatus false false 0#2 = 0#4 := by decide

@[simp] theorem statusValid_zero : statusValid 0#4 = false := rfl
@[simp] theorem statusFault_zero : statusFault 0#4 = false := rfl
@[simp] theorem statusCause_zero : statusCause 0#4 = 0#2 := rfl

@[simp] theorem setValid_eq (b : Bool) (st : Status) :
    setValid b st = mkStatus b (statusFault st) (statusCause st) := rfl

@[simp] theorem setFault_eq (b : Bool) (st : Status) :
    setFault b st = mkStatus (statusValid st) b (statusCause st) := rfl

@[simp] theorem setCause_eq (c : BitVec 2) (st : Status) :
    setCause c st = mkStatus (statusValid st) (statusFault st) c := rfl

/-- The code of a cause is never NONE (R18). -/
@[simp] theorem causeCode_ne_zero (c : FaultCause) : causeCode c ≠ 0#2 := by cases c <;> decide

/-- The code names the cause (R18). -/
@[simp] theorem causeOfCode_causeCode (c : FaultCause) : causeOfCode (causeCode c) = some c := by cases c <;> rfl

end Sys2Proof.Machine
end

