-- ==== Sys2Proof/Laws/State.lean ====
section
/-! SUPPORT. One lemma per field per update of State, so that no proof unfolds a record update, and what each update does
to the halted state and to the two delivered streams. -/

namespace Sys2Proof.Machine

variable (s : State) (rest : List Input) (c : FaultCause) (x : Sample) (p : Period) (ph : Phase) (w : CmdWord)

@[simp] theorem reset_block : State.reset.block = { sample := none, status := 0 } := rfl
@[simp] theorem reset_inputs : State.reset.inputs = [] := rfl
@[simp] theorem reset_outputs : State.reset.outputs = [] := rfl
@[simp] theorem reset_traceEnable : State.reset.traceEnable = Config.traceEnableDefault := rfl

@[simp] theorem withInputs_block : (withInputs rest s).block = s.block := rfl
@[simp] theorem withInputs_inputs : (withInputs rest s).inputs = rest := rfl
@[simp] theorem withInputs_outputs : (withInputs rest s).outputs = s.outputs := rfl
@[simp] theorem withInputs_traceEnable : (withInputs rest s).traceEnable = s.traceEnable := rfl

@[simp] theorem raiseFault_sample : (raiseFault c s).block.sample = none := rfl
@[simp] theorem raiseFault_status : (raiseFault c s).block.status = mkStatus false true (causeCode c) := by
  simp [raiseFault]
@[simp] theorem raiseFault_inputs : (raiseFault c s).inputs = s.inputs := rfl
@[simp] theorem raiseFault_outputs : (raiseFault c s).outputs = s.outputs := rfl
@[simp] theorem raiseFault_traceEnable : (raiseFault c s).traceEnable = s.traceEnable := rfl

@[simp] theorem resetBlock_block : (resetBlock s).block = { sample := none, status := 0 } := by
  simp [resetBlock]
@[simp] theorem resetBlock_inputs : (resetBlock s).inputs = s.inputs := rfl
@[simp] theorem resetBlock_outputs : (resetBlock s).outputs = s.outputs := rfl
@[simp] theorem resetBlock_traceEnable : (resetBlock s).traceEnable = s.traceEnable := rfl

@[simp] theorem emitResp_block : (emitResp x s).block = s.block := rfl
@[simp] theorem emitResp_inputs : (emitResp x s).inputs = s.inputs := rfl
@[simp] theorem emitResp_outputs : (emitResp x s).outputs = s.outputs ++ [.resp x] := rfl
@[simp] theorem emitResp_traceEnable : (emitResp x s).traceEnable = s.traceEnable := rfl

@[simp] theorem emitTrace_block : (emitTrace p ph s).block = s.block := by unfold emitTrace; split <;> rfl
@[simp] theorem emitTrace_inputs : (emitTrace p ph s).inputs = s.inputs := by unfold emitTrace; split <;> rfl
@[simp] theorem emitTrace_outputs : (emitTrace p ph s).outputs =
    s.outputs ++ (if s.traceEnable then [.trace p ph] else []) := by
  unfold emitTrace; split <;> simp
@[simp] theorem emitTrace_traceEnable : (emitTrace p ph s).traceEnable = s.traceEnable := by
  unfold emitTrace; split <;> rfl

@[simp] theorem complete_sample : (complete x s).block.sample = some x := rfl
@[simp] theorem complete_status : (complete x s).block.status =
    mkStatus true (statusFault s.block.status) (statusCause s.block.status) := rfl
@[simp] theorem complete_inputs : (complete x s).inputs = s.inputs := rfl
@[simp] theorem complete_outputs : (complete x s).outputs = s.outputs ++ [.resp x] := rfl
@[simp] theorem complete_traceEnable : (complete x s).traceEnable = s.traceEnable := rfl

@[simp] theorem presentWord_block : (presentWord w s).block = s.block := rfl
@[simp] theorem presentWord_inputs : (presentWord w s).inputs = .command w :: s.inputs := rfl
@[simp] theorem presentWord_outputs : (presentWord w s).outputs = s.outputs := rfl
@[simp] theorem presentWord_traceEnable : (presentWord w s).traceEnable = s.traceEnable := rfl

@[simp] theorem halted_withInputs : halted (withInputs rest s) = halted s := rfl
@[simp] theorem halted_raiseFault : halted (raiseFault c s) = true := by simp [halted]
@[simp] theorem halted_resetBlock : halted (resetBlock s) = false := by simp [halted]
@[simp] theorem halted_complete : halted (complete x s) = halted s := by simp [halted]
@[simp] theorem halted_emitTrace : halted (emitTrace p ph s) = halted s := by simp [halted]
@[simp] theorem halted_presentWord : halted (presentWord w s) = halted s := rfl

@[simp] theorem responsesOf_nil : responsesOf [] = [] := rfl
@[simp] theorem responsesOf_resp (o : List Output) : responsesOf (.resp x :: o) = x :: responsesOf o := rfl
@[simp] theorem responsesOf_trace (o : List Output) : responsesOf (.trace p ph :: o) = responsesOf o := rfl
@[simp] theorem tracesOf_nil : tracesOf [] = [] := rfl
@[simp] theorem tracesOf_resp (o : List Output) : tracesOf (.resp x :: o) = tracesOf o := rfl
@[simp] theorem tracesOf_trace (o : List Output) : tracesOf (.trace p ph :: o) = (p, ph) :: tracesOf o := rfl

@[simp] theorem responsesOf_append (a b : List Output) :
    responsesOf (a ++ b) = responsesOf a ++ responsesOf b := by
  induction a with
  | nil => rfl
  | cons o a ih => cases o <;> simp [ih]

@[simp] theorem tracesOf_append (a b : List Output) : tracesOf (a ++ b) = tracesOf a ++ tracesOf b := by
  induction a with
  | nil => rfl
  | cons o a ih => cases o <;> simp [ih]

end Sys2Proof.Machine
end

