-- ==== Sys2Proof/Laws/Ops.lean ====
section
/-! SUPPORT. For each shared operation of a command, one lemma that says all it can do (R81, R127). -/

namespace Sys2Proof.Machine

/-- All `resultOf` can be: ZERO_PERIOD exactly for period 0, the narrowed raw result otherwise (R80). -/
theorem resultOf_cases (p : Period) (raw : Int) :
    (p = 0 ∧ resultOf p raw = .fault .zeroPeriod) ∨ (p ≠ 0 ∧ resultOf p raw = .sample (narrow16 raw)) := by
  by_cases h : p = 0
  · exact .inl ⟨h, if_pos h⟩
  · exact .inr ⟨h, if_neg h⟩

/-- All `runCommand` can do (R81). -/
theorem runCommand_eq_next_iff (r : Result) (s t : State) :
    runCommand r s = .next t ↔ halted s = false ∧ t = deliver r s := by
  unfold runCommand; cases halted s <;> simp [eq_comm]

/-- All `runTracedCommand` can do (R81, R34). -/
theorem runTracedCommand_eq_next_iff (r : Result) (p : Period) (ph : Phase) (s t : State) :
    runTracedCommand r p ph s = .next t ↔ halted s = false ∧ t = deliverTraced r p ph s := by
  unfold runTracedCommand; cases halted s <;> simp [eq_comm]

@[simp] theorem deliver_fault (c : FaultCause) (s : State) : deliver (.fault c) s = raiseFault c s := rfl

@[simp] theorem deliver_sample (x : Sample) (s : State) : deliver (.sample x) s = complete x s := rfl

@[simp] theorem deliverTraced_fault (c : FaultCause) (p : Period) (ph : Phase) (s : State) :
    deliverTraced (.fault c) p ph s = raiseFault c s := rfl

@[simp] theorem deliverTraced_sample (x : Sample) (p : Period) (ph : Phase) (s : State) :
    deliverTraced (.sample x) p ph s = complete x (emitTrace p ph s) := rfl

/-- All `removeReset` can do: the first reset is taken out, every presented word stays (R127, R150). -/
theorem removeReset_eq_some_iff (l rest : List Input) :
    removeReset l = some rest ↔ ∃ a b, (∀ i ∈ a, i ≠ .reset) ∧ l = a ++ .reset :: b ∧ rest = a ++ b := by
  induction l generalizing rest with
  | nil => simp [removeReset]
  | cons i l ih =>
    cases i with
    | reset =>
      constructor
      · intro h
        exact ⟨[], l, by simp, rfl, by simpa [removeReset, eq_comm] using h⟩
      · rintro ⟨a, b, ha, hl, rfl⟩
        cases a with
        | nil => simpa [removeReset] using hl
        | cons j a => simp_all
    | command w =>
      simp only [removeReset, Option.map_eq_some_iff, ih]
      constructor
      · rintro ⟨r, ⟨a, b, ha, rfl, rfl⟩, rfl⟩
        exact ⟨.command w :: a, b, by simpa using ha, rfl, rfl⟩
      · rintro ⟨a, b, ha, hl, rfl⟩
        cases a with
        | nil => simp at hl
        | cons j a =>
          simp only [List.cons_append, List.cons.injEq] at hl
          obtain ⟨rfl, rfl⟩ := hl
          exact ⟨a ++ b, ⟨a, b, fun i hi => ha i (by simp [hi]), rfl, rfl⟩, rfl⟩

/-- There is no reset to take exactly when none is among the events. -/
theorem removeReset_eq_none_iff (l : List Input) : removeReset l = none ↔ .reset ∉ l := by
  induction l with
  | nil => simp [removeReset]
  | cons i l ih => cases i <;> simp [removeReset, ih]

end Sys2Proof.Machine
end

