-- ==== Sys2Proof/Laws/After.lean ====
section
/-! SUPPORT. The shared operations in the terms the statements use: taking a fault, completing a command and resetting, each
as the whole next state spelt out in Safety.lean (R81, R124, R150), and the envelope of a command on a block that is not
halted and on one that is. -/

namespace Sys2Proof.Machine

theorem raiseFault_eq_afterFault (c : FaultCause) (s : State) : raiseFault c s = afterFault s c := by
  simp [raiseFault, afterFault]

theorem complete_eq_afterSample (x : Sample) (s : State) : complete x s = afterSample s [] x := by
  simp [complete, afterSample, emitResp]

theorem complete_emitTrace_eq_afterSample (x : Sample) (p : Period) (ph : Phase) (s : State) :
    complete x (emitTrace p ph s) = afterSample s (traceBefore s p ph) x := by
  unfold emitTrace traceBefore
  split <;> simp [complete, afterSample, emitResp, *]

theorem resetBlock_eq_afterReset (s : State) (rest : List Input) :
    resetBlock (withInputs rest s) = afterReset s rest := by
  simp [resetBlock, withInputs, afterReset]

/-- The envelope of a command that does not trace, on a block that is not halted (R81). -/
theorem runCommand_of_not_halted (r : Result) (s : State) (h : halted s = false) :
    runCommand r s =
      match r with
      | .fault c => .next (afterFault s c)
      | .sample x => .next (afterSample s [] x) := by
  cases r <;> simp [runCommand, h, raiseFault_eq_afterFault, complete_eq_afterSample]

/-- The envelope of the command that traces, on a block that is not halted (R81, R34). -/
theorem runTracedCommand_of_not_halted (r : Result) (p : Period) (ph : Phase) (s : State) (h : halted s = false) :
    runTracedCommand r p ph s =
      match r with
      | .fault c => .next (afterFault s c)
      | .sample x => .next (afterSample s (traceBefore s p ph) x) := by
  cases r <;> simp [runTracedCommand, h, raiseFault_eq_afterFault, complete_emitTrace_eq_afterSample]

/-- A halted block runs no command (R127). -/
theorem runCommand_of_halted (r : Result) (s : State) (h : halted s = true) :
    runCommand r s = .fault .halted := by simp [runCommand, h]

theorem runTracedCommand_of_halted (r : Result) (p : Period) (ph : Phase) (s : State) (h : halted s = true) :
    runTracedCommand r p ph s = .fault .halted := by simp [runTracedCommand, h]

@[simp] theorem stepMany_zero (s : State) : stepMany 0 s = .next s := rfl

/-- One step more when the first answers a next state. -/
theorem stepMany_succ_of_next (k : Nat) (s t : State) (h : step s = .next t) :
    stepMany (k + 1) s = stepMany k t := by simp [stepMany, h]

/-- No step more when the first answers a fault. -/
theorem stepMany_succ_of_fault (k : Nat) (s : State) (r : Fault) (h : step s = .fault r) :
    stepMany (k + 1) s = .fault r := by simp [stepMany, h]

end Sys2Proof.Machine
end

