-- ==== Sys2Proof/Laws/Arith.lean ====
section
/-! SUPPORT. The integer primitives once and for all: `tdiv` as the library's truncating division (R70), on natural numbers
and under negation; the two truncations; narrowing (R74); the position (R75). -/

namespace Sys2Proof.Machine

/-- R70's formula is the library's division truncating toward zero. -/
theorem tdiv_eq (a b : Int) : tdiv a b = Int.tdiv a b := by
  rcases Int.natAbs_eq a with ha | ha <;> rcases Int.natAbs_eq b with hb | hb <;>
    · rw [tdiv]
      generalize a.natAbs = m at *
      generalize b.natAbs = n at *
      subst ha hb
      rcases Nat.eq_zero_or_pos m with rfl | hm <;> rcases Nat.eq_zero_or_pos n with rfl | hn <;>
        simp_all [Int.sign_eq_one_of_pos]

/-- On natural numbers `tdiv` is the floor (R70). -/
@[simp] theorem tdiv_natCast (m n : Nat) : tdiv m n = ((m / n : Nat) : Int) := by simp [tdiv_eq]

/-- `tdiv(-a, b) = -tdiv(a, b)` (R70). -/
@[simp] theorem tdiv_neg_left (a b : Int) : tdiv (-a) b = -tdiv a b := by simp [tdiv_eq, Int.neg_tdiv]

/-- A negative dividend over a natural number gives the negated floor of the magnitudes (R70). -/
theorem tdiv_neg_natCast (m n : Nat) : tdiv (-(m : Int)) n = -((m / n : Nat) : Int) := by simp

theorem position_nonneg (period phase : Nat) : 0 ≤ position period phase := Int.natCast_nonneg _

/-- `x` lies in `[0, period)` (R75). -/
theorem position_lt (period phase : Nat) (h : 0 < period) : position period phase < period := by
  unfold position; exact_mod_cast Nat.mod_lt _ h

/-- `half` is the floor of half the period (R91). -/
@[simp] theorem halfPeriod_eq (period : Nat) : halfPeriod period = ((period / 2 : Nat) : Int) :=
  tdiv_natCast period 2

theorem trunc16_lt (r : Int) : trunc16 r < 65536 := by unfold trunc16; omega

theorem trunc32_lt (r : Int) : trunc32 r < 4294967296 := by unfold trunc32; omega

theorem trunc16_natCast (n : Nat) : trunc16 n = n % 65536 := by unfold trunc16; omega

/-- The signed value of a narrowed result (R74). -/
theorem toInt_narrow16 (r : Int) : (narrow16 r).toInt = r.bmod 65536 := by
  simp [narrow16, BitVec.toInt_ofInt]

/-- A result that fits signed 16 bits is delivered as it is (R74). -/
theorem toInt_narrow16_of_fits (r : Int) (lo : -32768 ≤ r) (hi : r ≤ 32767) : (narrow16 r).toInt = r := by
  rw [toInt_narrow16]; exact Int.bmod_eq_of_le (by omega) (by omega)

/-- Narrowing sees a result modulo 2^16 only (R74). -/
theorem narrow16_congr (a b : Int) (h : a % 65536 = b % 65536) : narrow16 a = narrow16 b := by
  apply BitVec.eq_of_toInt_eq
  rw [toInt_narrow16, toInt_narrow16, Int.bmod_def, Int.bmod_def]
  simp only [Nat.cast_ofNat, h]

/-- A value that fits signed 32 bits is kept by a 32-bit variable (R73). -/
theorem wrap32_of_fits (r : Int) (h : fitsInt32 r = true) : wrap32 r = r := by
  simp only [fitsInt32, decide_eq_true_eq] at h
  rw [wrap32, BitVec.toInt_ofInt]
  exact Int.bmod_eq_of_le (by omega) (by omega)

end Sys2Proof.Machine
end

