-- ==== Sys2Proof/Laws/PerInstr.lean ====
section
/-! SUPPORT. A family of statements about each instruction as syntax: the encoder puts every field where R50 says, so that
the four field readers give it back. -/

namespace Sys2Proof.Laws

/-- The four fields of a `{OP, VOLUME, PERIOD, PHASE}` word are what was put there (R50). -/
theorem fields_of_append (op : OpField) (v : Volume) (p : Period) (ph : Phase) :
    opField (op ++ v ++ p ++ ph) = op ∧ volumeField (op ++ v ++ p ++ ph) = v ∧
      periodField (op ++ v ++ p ++ ph) = p ∧ phaseField (op ++ v ++ p ++ ph) = ph := by
  refine ⟨?_, ?_, ?_, ?_⟩ <;>
    · apply BitVec.eq_of_getLsbD_eq
      intro k hk
      simp only [opField, volumeField, periodField, phaseField, BitVec.getLsbD_extractLsb', BitVec.getLsbD_append]
      grind

/-- What the family says of one instruction. -/
def EncodeFields.Statement (i : Instr) : Prop :=
  opField (encode i) = opNumber i.op ∧ volumeField (encode i) = i.volume ∧
    periodField (encode i) = i.period ∧ phaseField (encode i) = i.phase

theorem EncodeFields.sawtooth (v : Volume) (p : Period) (ph : Phase) :
    EncodeFields.Statement (.sawtooth v p ph) := fields_of_append _ _ _ _

theorem EncodeFields.triangle (v : Volume) (p : Period) (ph : Phase) :
    EncodeFields.Statement (.triangle v p ph) := fields_of_append _ _ _ _

theorem EncodeFields.square (v : Volume) (p : Period) (ph : Phase) :
    EncodeFields.Statement (.square v p ph) := fields_of_append _ _ _ _

theorem EncodeFields.sine (v : Volume) (p : Period) (ph : Phase) :
    EncodeFields.Statement (.sine v p ph) := fields_of_append _ _ _ _

theorem EncodeFields.test (v : Volume) (p : Period) (ph : Phase) :
    EncodeFields.Statement (.test v p ph) := fields_of_append _ _ _ _

end Sys2Proof.Laws
end

