-- ==== Sys2Proof/Laws/Step.lean ====
section
/-! SUPPORT. What a step can do, said once: if it answers a next state, one of these cases holds. -/

namespace Sys2Proof.Machine

/-- All `nextEvent` can be, with the states it comes from (R127, R136, R150). -/
theorem nextEvent_cases (s : State) :
    (nextEvent s = .idle ∧ halted s = false ∧ s.inputs = []) ∨
    (nextEvent s = .stuck ∧ halted s = true ∧ .reset ∉ s.inputs) ∨
    (∃ rest, nextEvent s = .reset rest ∧ halted s = true ∧ removeReset s.inputs = some rest) ∨
    (∃ rest, nextEvent s = .reset rest ∧ halted s = false ∧ s.inputs = .reset :: rest) ∨
    (∃ w rest, nextEvent s = .command w rest ∧ halted s = false ∧ s.inputs = .command w :: rest) := by
  unfold nextEvent
  cases hh : halted s with
  | true =>
    cases hr : removeReset s.inputs with
    | none => simpa using (removeReset_eq_none_iff _).1 hr
    | some rest => simp
  | false =>
    cases hi : s.inputs with
    | nil => simp
    | cons i rest => cases i <;> simp

/-- The inversion of a step: an idle step, a reset, a command that decodes, or a reserved encoding. -/
theorem step_cases (s t : State) (h : step s = .next t) :
    (halted s = false ∧ s.inputs = [] ∧ t = s) ∨
    (∃ rest, halted s = true ∧ removeReset s.inputs = some rest ∧ t = resetBlock (withInputs rest s)) ∨
    (∃ rest, halted s = false ∧ s.inputs = .reset :: rest ∧ t = resetBlock (withInputs rest s)) ∨
    (∃ w rest i, halted s = false ∧ s.inputs = .command w :: rest ∧ decode w = .instr i ∧
      exec i (withInputs rest s) = .next t) ∨
    (∃ w rest op, halted s = false ∧ s.inputs = .command w :: rest ∧ decode w = .illegalOp op ∧
      t = raiseFault .illegalOp (withInputs rest s)) := by
  unfold step at h
  rcases nextEvent_cases s with ⟨e, hh, hi⟩ | ⟨e, hh, hi⟩ | ⟨r, e, hh, hi⟩ | ⟨r, e, hh, hi⟩ | ⟨w, r, e, hh, hi⟩ <;>
    rw [e] at h
  · exact .inl ⟨hh, hi, by simpa [eq_comm] using h⟩
  · cases h
  · exact .inr (.inl ⟨r, hh, hi, by simpa [eq_comm] using h⟩)
  · exact .inr (.inr (.inl ⟨r, hh, hi, by simpa [eq_comm] using h⟩))
  · cases hd : decode w with
    | instr i => exact .inr (.inr (.inr (.inl ⟨w, r, i, hh, hi, hd, by simpa [hd] using h⟩)))
    | illegalOp op =>
      exact .inr (.inr (.inr (.inr ⟨w, r, op, hh, hi, hd, by simpa [hd, eq_comm] using h⟩)))

end Sys2Proof.Machine
end

