-- ==== Sys2Proof/Tests/Slice0.lean ====
section
/-! SUPPORT. Small tests, each expected value taken from spec/95_test_vectors.md (the vector is named) or from a rule, and for
each statement with hypotheses one theorem that shows states and operands meeting them, clause by clause, at the ends of
the ranges. -/

namespace Sys2Proof.Tests

open Sys2Proof Sys2Proof.Machine

/-- The block after reset with the given events to come, tracing on or off. -/
def blockWith (tracing : Bool) (inputs : List Input) : State :=
  { State.reset with inputs := inputs, traceEnable := tracing }

/-- The block after reset with one word presented. -/
def present (w : CmdWord) : State := blockWith false [.command w]

/-- A block halted by ZERO_PERIOD (`STATUS` = 6), with the given events to come. -/
def haltedWith (inputs : List Input) : State :=
  { State.reset with block := { sample := none, status := 6 }, inputs := inputs }

/-- The block after a completed command (`SAMPLE` = 250, `STATUS` = 1), with the given events to come. -/
def validWith (inputs : List Input) : State :=
  { State.reset with block := { sample := some 250, status := 1 }, inputs := inputs, outputs := [.resp 250] }

/-- The next state of an outcome. -/
def stateOf (o : Host.Outcome State Fault Refusal) : Option State :=
  match o with
  | .next s => some s
  | .fault _ => none
  | .refused _ => none

/-- What the host reads of `SAMPLE`, as a signed number, and of `STATUS` after one step. -/
def readAfter (s : State) : Option (Option Int × Nat) :=
  (stateOf (step s)).map fun t => ((readSample t).map BitVec.toInt, (readStatus t).toNat)

/-! ### Well-formedness -/

theorem test_volume_out_of_range_refused : (SourceCommand.mk .sine 65536 1 0).wellFormed = false := by decide
theorem test_period_out_of_range_refused : (SourceCommand.mk .sine 1 65536 0).wellFormed = false := by decide
theorem test_phase_out_of_range_refused : (SourceCommand.mk .sine 1 1 4294967296).wellFormed = false := by decide
theorem test_largest_literals_accepted :
    (SourceCommand.mk .sine 65535 65535 4294967295).wellFormed = true := by decide
theorem test_assembler_refuses_large_period :
    assemble ['s', 'i', 'n', 'e', ' ', '1', ',', '6', '5', '5', '3', '6', ',', '0'] = .outOfRange := by decide

/-! ### Decoding: words written out from R50 and R54 -/

/-- L2: `OP` 000, `VOLUME` 0x03E8, `PERIOD` 0x0064, `PHASE` 0x00000019. -/
theorem test_decode_sawtooth : decode 0x003E8006400000019 = .instr (.sawtooth 1000 100 25) := by decide
/-- T2. -/
theorem test_decode_triangle : decode 0x107D000C800000032 = .instr (.triangle 2000 200 50) := by decide
/-- Q2. -/
theorem test_decode_square : decode 0x203E800640000003C = .instr (.square 1000 100 60) := by decide
/-- N38: every bit of `VOLUME` and `PERIOD` set. -/
theorem test_decode_sine : decode 0x3FFFFFFFF00003FFF = .instr (.sine 65535 65535 16383) := by decide
/-- Section 2.5, Decode. -/
theorem test_decode_test : decode 0x403E8B6DC00000005 = .instr (.test 1000 46812 5) := by decide
/-- X8, X9, X10. -/
theorem test_decode_reserved : decode 0x503E8006400000019 = .illegalOp 5 ∧
    decode 0x60000000000000000 = .illegalOp 6 ∧ decode 0x7FFFFFFFFFFFFFFFF = .illegalOp 7 := by decide
/-- F22: every bit of `PHASE` set. -/
theorem test_encode_test : encode (.test 1000 100 4294967295) = 0x403E80064FFFFFFFF := by decide
/-- Bit 67 does not exist (R51). -/
theorem test_no_word_above_bit_66 : decodeTableWord 72 0x80000000000000000 = none ∧
    decodeTableWord 72 0x203E800640000000A = some (.square 1000 100 10) := by decide

/-! ### One step of each instruction -/

/-- L11: the largest product. -/
theorem test_sawtooth_largest : readAfter (present 0x0FFFFFFFF0000FFFE) = some (some 32767, 1) := by decide
/-- L14 and P1: the whole 32-bit phase is reduced and traced, the trace event before the response. -/
theorem test_sawtooth_traces :
    (stateOf (step (blockWith true [.command 0x003E80064FFFFFFFF]))).map State.outputs =
      some [.trace 100 4294967295, .resp 450] := by decide
/-- T9: `x = half` takes the falling arm. -/
theorem test_triangle_odd_peak : readAfter (present 0x103E8000300000001) = some (some 833, 1) := by decide
/-- T16: the peak wraps. -/
theorem test_triangle_wraps : readAfter (present 0x1FFFF00C800000064) = some (some (-32768), 1) := by decide
/-- Q4: `x = half` is low. -/
theorem test_square_half_is_low : readAfter (present 0x203E8006400000032) = some (some (-250), 1) := by decide
/-- N39: the largest intermediates, section 2. -/
theorem test_sine_largest_intermediates : readAfter (present 0x3FFFFFFFF0000BFFF) = some (some 0, 1) := by decide
/-- N15: section 3, truncation toward zero. -/
theorem test_sine_section_three : readAfter (present 0x303E801900000015E) = some (some (-697), 1) := by decide
/-- F28: the inner narrowing and the 32-bit sum both wrap. -/
theorem test_test_both_wraps : readAfter (present 0x49C4001900000008C) = some (some 25536, 1) := by decide
/-- F20: the sum wraps below zero. -/
theorem test_test_sum_wraps : readAfter (present 0x403E8006400000069) = some (some 62, 1) := by decide

/-! ### Faults, halt, reset -/

/-- X1, X3, X5. -/
theorem test_zero_period : readAfter (present 0x003E8000000000019) = some (none, 6) ∧
    readAfter (present 0x203E8000000000019) = some (none, 6) ∧
    readAfter (present 0x403E8000000000019) = some (none, 6) := by decide
/-- X6, X7; X12: period 46812 is legal for `sine`. -/
theorem test_zero_inner_period : readAfter (present 0x403E8B6DC00000005) = some (none, 10) ∧
    readAfter (present 0x40000B6DC00000000) = some (none, 10) ∧
    readAfter (present 0x303E8B6DC00000005) = some (some 0, 1) := by decide
/-- X8, X9, X11. -/
theorem test_illegal_op : readAfter (present 0x503E8006400000019) = some (none, 14) ∧
    readAfter (present 0x60000000000000000) = some (none, 14) ∧
    readAfter (present 0x503E8000000000019) = some (none, 14) := by decide
/-- P6: the halted block does not consume the word; after reset it is accepted. -/
theorem test_halted_then_reset :
    stateOf (step (haltedWith [.command 0x203E800640000000A])) = none ∧
    (stateOf (step (haltedWith [.command 0x203E800640000000A, .reset]))) =
      some (present 0x203E800640000000A) ∧
    readAfter (present 0x203E800640000000A) = some (some 250, 1) := by decide

/-- The first step after reset on a presented table word is the instruction's meaning (S1). -/
theorem test_first_step_runs_presented_word :
    stateOf (step (State.reset.withFetchWord 72 0x203E800640000000A)) =
      stateOf (exec (.square 1000 100 10) State.reset) := by decide

/-! ### Text -/

/-- R60's call notation and a comment; R62 of a reserved word. -/
theorem test_call_notation :
    assemble ['s', 'i', 'n', 'e', '(', '0', 'x', '3', 'E', '8', ',', '4', ',', ' ', '1', ')', ' ', ';', 'c'] =
      .word 0x303E8000400000001 := by decide
/-- R60: `0x3E8` is 1000, in either case (log 10); a letter is no decimal digit. -/
theorem test_hexadecimal_literal : readLiteral ['0', 'x', '3', 'e', '8'] = some 1000 ∧
    readLiteral ['0', 'x', '3', 'E', '8'] = some 1000 ∧ readLiteral ['3', 'E', '8'] = none := by decide
theorem test_disassemble_reserved : disassemble 0x503E8006400000019 =
    ['.', 'w', 'o', 'r', 'd', ' ', '0', 'x', '5', '0', '3', 'E', '8', '0', '0', '6', '4', '0', '0', '0', '0', '0',
      '0', '1', '9'] := by decide
theorem test_disassemble_square : disassemble 0x203E800640000000A =
    ['s', 'q', 'u', 'a', 'r', 'e', ' ', '1', '0', '0', '0', ',', ' ', '1', '0', '0', ',', ' ', '1', '0'] := by decide

/-! ### Witnesses: the hypotheses of each statement can be met -/

theorem test_witness_ResetLeavesSpecValues :
    decode 0x203E800640000000A = .instr (.square 1000 100 10) := by decide
theorem test_witness_StepRunsDecodedInstruction :
    halted (present 0x203E800640000000A) = false ∧
    (present 0x203E800640000000A).inputs = .command 0x203E800640000000A :: [] ∧
    decode 0x203E800640000000A = .instr (.square 1000 100 10) ∧ (Instr.square 1000 100 10).wellFormed = true := by
  decide
theorem test_witness_FetchWordIsRunNext : halted State.reset = false ∧
    decodeTableWord 72 0x303E8019000000032 = some (.sine 1000 400 50) := by decide
theorem test_witness_IdleBlockKeepsItsState : halted State.reset = false ∧ State.reset.inputs = [] := by decide
theorem test_witness_HaltedBlockHasNoStep :
    statusFault (haltedWith [.command 0]).block.status = true ∧ .reset ∉ (haltedWith [.command 0]).inputs ∧
    stateOf (step (haltedWith [.command 0, .reset])) = some (blockWith false [.command 0]) := by decide
theorem test_witness_ResetClearsTheBlock :
    (halted (validWith [.reset, .command 0]) = false ∧
      (validWith [.reset, .command 0]).inputs = .reset :: [.command 0]) ∧
    (halted (haltedWith [.command 0, .reset, .command 1]) = true ∧
      (∀ i ∈ [Input.command 0], i ≠ .reset) ∧
      (haltedWith [.command 0, .reset, .command 1]).inputs = [.command 0] ++ .reset :: [.command 1]) := by decide
theorem test_witness_StepRefinesWave :
    halted (present 0x503E8000000000019) = false ∧
    (present 0x503E8000000000019).inputs = .command 0x503E8000000000019 :: [] := by decide
theorem test_witness_ResultDependsOnCommandOnly :
    halted (validWith []) = false ∧ halted (blockWith true []) = false := by decide
theorem test_witness_BlockNeverHangsUnlessHalted :
    statusFault (present 5).block.status = false ∧ (present 5).inputs = .command 5 :: [] := by decide
theorem test_witness_BlockNeverHangsUnlessHalted_idle :
    statusFault State.reset.block.status = false ∧ State.reset.inputs = [] ∧
    stateOf (step State.reset) = some State.reset := by decide
theorem test_witness_StepKeepsBlockConsistent :
    BlockConsistent (validWith [.command 0x003E8000000000019]).block ∧
    (stateOf (step (validWith [.command 0x003E8000000000019]))).isSome = true :=
  ⟨⟨by decide, by decide, by decide⟩, by decide⟩
theorem test_witness_StepKeepsSampleIsLastResponse :
    SampleIsLastResponse (validWith [.command 0x203E800640000003C]) ∧
    readAfter (validWith [.command 0x203E800640000003C]) = some (some (-250), 1) :=
  ⟨fun _ => by decide, by decide⟩
theorem test_witness_StepKeepsTraceEnableAndDelivered :
    (stateOf (step (validWith [.command 0x203E800640000003C]))).map (fun t => (t.traceEnable, t.outputs.length)) =
      some (false, 2) := by decide
theorem test_witness_FaultPriority :
    (halted (present 0x50000000000000000) = false ∧ 5 ≤ (opField 0x50000000000000000).toNat) ∧
    ((opField 0x40000000000000000).toNat ≤ 4 ∧ periodField 0x40000000000000000 = 0) ∧
    (opField 0x40000B6DC00000000 = 4 ∧ periodField 0x40000B6DC00000000 = 46812) ∧
    ((opField 0x30000B6DC00000000).toNat ≤ 4 ∧ periodField 0x30000B6DC00000000 ≠ 0 ∧
      (opField 0x30000B6DC00000000 = 4 → periodField 0x30000B6DC00000000 ≠ 46812)) ∧
    ((opField 0x40000B6DD00000000).toNat ≤ 4 ∧ periodField 0x40000B6DD00000000 ≠ 0 ∧
      (opField 0x40000B6DD00000000 = 4 → periodField 0x40000B6DD00000000 ≠ 46812)) := by decide
theorem test_witness_ZeroPeriodFaultsInEveryOperation :
    halted State.reset = false ∧ (Instr.test 1 0 1).period = 0 := by decide
theorem test_witness_ZeroInnerPeriodFaults : halted State.reset = false ∧
    trunc16 (tdiv ((46812#16).toNat * 7) 5) = 0 ∧ trunc16 (tdiv ((46811#16).toNat * 7) 5) = 65535 ∧
    trunc16 (tdiv ((46813#16).toNat * 7) 5) = 2 := by decide
theorem test_witness_DutyKeptExactlyWhenCommandCompletes : halted State.reset = false ∧
    DutyKept (.test 1 46811 0) ∧ DutyKept (.test 1 46813 0) ∧ DutyKept (.sine 1 46812 0) ∧
    ¬ DutyKept (.test 1 46812 0) ∧ ¬ DutyKept (.square 1 0 0) := by
  unfold DutyKept; decide
theorem test_witness_AcceptedWordDeliversOnceOrFaults :
    halted (present 0x203E800640000000A) = false ∧ readAfter (present 0x203E800640000000A) = some (some 250, 1) ∧
    readAfter (present 0x203E8000000000019) = some (none, 6) := by decide
theorem test_witness_OnlyCompletingSawtoothTraces :
    halted (blockWith true [.command 0x003E8006400000019]) = false ∧
    (stateOf (step (blockWith true [.command 0x003E8006400000019]))).map traces = some [(100, 25)] := by decide
theorem test_witness_SawtoothResult :
    halted State.reset = false ∧ (0 : Period) = 0 ∧ (1 : Period) ≠ 0 ∧ (65535 : Period) ≠ 0 ∧
    readAfter (present 0x0FFFF000100000000) = some (some (-32767), 1) := by decide
theorem test_witness_SawtoothRampIsMonotone :
    25 % 100 ≤ 99 % 100 ∧ sawtoothRaw 1000 100 25 = -250 ∧ sawtoothRaw 1000 100 99 = 490 ∧
    100 % 100 = 0 ∧ sawtoothRaw 1000 100 100 = -500 := by decide
theorem test_witness_TriangleResult :
    halted State.reset = false ∧ readAfter (present 0x103E8000000000019) = some (none, 6) ∧
    readAfter (present 0x1FFFFFFFF00007FFF) = some (some (-32767), 1) := by decide
theorem test_witness_TrianglePeakAndRange :
    triangleRaw 21844 1 0 = 32766 ∧ triangleRaw 1000 3 1 = 833 ∧ triangleRaw 2000 200 100 = 1000 ∧
    triangleRaw 2000 200 99 = 980 ∧ triangleRaw 2000 200 0 = -1000 := by decide
theorem test_witness_SquareResult :
    halted State.reset = false ∧ readAfter (present 0x203E8006400000031) = some (some 250, 1) ∧
    readAfter (present 0x203E8000100000000) = some (some (-250), 1) := by decide
theorem test_witness_CoefficientsAreTruncatedProducts :
    coefficients 65535 = ⟨-28127, -9279, 102942⟩ ∧ coefficients 2 = ⟨0, 0, 3⟩ ∧
    coefficients 1000 = ⟨-429, -141, 1570⟩ := by decide
theorem test_witness_SectionIsTheQuarterOfThePosition :
    sineSection 1 0 = 0 ∧ sineSection 400 99 = 0 ∧ sineSection 400 100 = 1 ∧ sineSection 400 200 = 2 ∧
    sineSection 400 300 = 3 ∧ sineSection 65535 65534 = 3 := by decide
theorem test_witness_QuarterPositionBounds :
    quarterPosition 7 (sineSection 7 5) 5 = 2 ∧ quarterPosition 65535 (sineSection 65535 49151) 49151 = 16384 ∧
    quarterPosition 8 (sineSection 8 5) 5 = quarterPosition 8 (sineSection 8 1) 1 := by decide
theorem test_witness_CubicIsTheFloorChain : cubic 1000 7 2 = 970 ∧ cubicByFloors 1000 7 2 = 970 := by decide
theorem test_witness_DatapathWidths :
    (cubicChain 65535 65535 (quarterPosition 65535 (sineSection 65535 49151) 49151)).m1 = -29493297152 ∧
    (65535 - 32767) * 2 * 65535 = 4294901760 ∧ ¬ 32767 < 65535 / 2 ∧ 32766 < 65535 / 2 := by decide
theorem test_witness_SineResult :
    halted State.reset = false ∧ readAfter (present 0x303E8000000000019) = some (none, 6) ∧
    (4 * 99 < 400 ∧ 400 ≤ 4 * 100 ∧ 4 * 199 < 2 * 400 ∧ 2 * 400 ≤ 4 * 200 ∧ 4 * 299 < 3 * 400 ∧
      3 * 400 ≤ 4 * 300) ∧
    readAfter (present 0x303E8019000000063) = some (some 1000, 1) ∧
    readAfter (present 0x303E8019000000064) = some (some 1000, 1) ∧
    readAfter (present 0x303E80190000000C8) = some (some 0, 1) ∧
    readAfter (present 0x303E801900000012C) = some (some (-1000), 1) := by decide
theorem test_witness_SineZeroCrossingAndPeak :
    4 ∣ 400 ∧ 100 % 400 = 400 / 4 ∧ 300 % 400 = 3 * 400 / 4 ∧ sineRaw 1000 400 0 = 0 ∧
    sineRaw 1000 400 100 = 1000 ∧ sineRaw 32767 400 100 = 32768 ∧ sineRaw 65535 400 300 = -65536 := by decide
theorem test_witness_SineHalfWaveAntisymmetry :
    400 % 2 = 0 ∧ sineRaw 1000 400 (50 + 400 / 2) = -697 ∧ sineRaw 1000 400 50 = 697 := by decide
theorem test_witness_SineDegenerateCases :
    sineRaw 1000 1 0 = 0 ∧ sineRaw 1000 2 1 = 0 ∧ sineRaw 1 400 100 = 1 ∧ sineRaw 1 400 99 = 0 := by decide
theorem test_witness_InnerPeriodFormula :
    innerPeriod 1 = 1 ∧ innerPeriod 46811 = 65535 ∧ innerPeriod 46812 = 0 ∧ innerPeriod 65535 = 26213 := by decide
theorem test_witness_TestResult :
    halted State.reset = false ∧ readAfter (present 0x403E8000000000019) = some (none, 6) ∧
    readAfter (present 0x403E8B6DC00000005) = some (none, 10) ∧
    readAfter (present 0x403E8B6DB00003039) = some (some 976, 1) ∧
    readAfter (present 0x403E8B6DD00000005) = some (some 0, 1) := by decide
theorem test_witness_TestRepeatsAfterCommonMultiple :
    0 < innerPeriod 100 ∧ 100 ∣ 700 ∧ innerPeriod 100 ∣ 700 ∧ 32768 ≤ 100000 ∧ 100000 + 700 + 32767 ≤ 4294967295 ∧
    testRaw 1000 100 100000 = -980 ∧ testRaw 1000 100 (100000 + 700) = -980 := by decide
theorem test_witness_PositionDeterminesResult :
    (3 : OpField).toNat ≤ 3 ∧ (50 : Phase).toNat % (400 : Period).toNat = (450 : Phase).toNat % (400 : Period).toNat ∧
    wave 3 1000 400 50 = .sample 697 := by decide
theorem test_witness_PeriodicExceptTest :
    (3 : OpField).toNat ≤ 3 ∧ (4294966895 : Phase).toNat + (400 : Period).toNat = 4294967295 ∧
    wave 4 1000 100 100100 = .sample 0 ∧ wave 4 1000 100 100000 = .sample (BitVec.ofInt 16 (-980)) := by decide
theorem test_witness_ZeroVolumeIsSilent :
    (4 : OpField).toNat ≤ 4 ∧ (46811 : Period) ≠ 0 ∧ (46811 : Period) ≠ 46812 ∧ wave 4 0 46811 7 = .sample 0 := by
  decide
theorem test_witness_DivisionTruncatesTowardZero :
    tdiv 7 2 = 3 ∧ tdiv (-7) 2 = -3 ∧ tdiv (-1) 10000 = 0 ∧ tdiv 7 (-2) = -3 ∧ tdiv 0 5 = 0 := by decide
theorem test_witness_NarrowingWraps :
    (narrow16 32767).toInt = 32767 ∧ (narrow16 32768).toInt = -32768 ∧ (narrow16 (-32768)).toInt = -32768 ∧
    (narrow16 (-32769)).toInt = 32767 ∧ (narrow16 65536).toInt = 0 := by decide
theorem test_witness_Int32SafeImplementationAgrees :
    int32Safe .sine 4760 65535 49151 = true ∧ int32Safe .sine 65535 65535 49151 = false ∧
    int32Safe .test 1000 100 2 = true ∧ int32Safe .sawtooth 65535 65535 65534 = false ∧
    int32Safe .triangle 2000 200 100 = true := by decide
theorem test_witness_Int32SafeSufficientConditions :
    (65535 : Volume).toNat * ((32769 : Period).toNat - 1) ≤ 2147483647 ∧
    (65535 : Volume).toNat * ((32767 : Period).toNat + 1) ≤ 2147483647 ∧
    (65535 : Volume).toNat * ((4756 : Period).toNat + 4) ≤ 312000000 ∧
    (4760 : Volume).toNat * ((65535 : Period).toNat + 4) ≤ 312000000 := by decide
theorem test_witness_DecodeAndEncodeAreInverse :
    (Instr.test 65535 0 0).wellFormed = true ∧ (opField 0x4FFFFFFFFFFFFFFFF).toNat ≤ 4 ∧
    decode 0x4FFFFFFFFFFFFFFFF = .instr (.test 65535 65535 4294967295) := by decide
theorem test_witness_IllegalWordsAreTheReservedOnes :
    decode 0x50000000000000000 = .illegalOp 5 ∧ decode 0x4FFFFFFFFFFFFFFFF ≠ .illegalOp 5 := by decide
theorem test_witness_AssemblerChecksLiterals :
    65535 < 10 ^ 10 ∧ decimalText 65535 = ['6', '5', '5', '3', '5'] ∧ decimalText 0 = ['0'] ∧
    decimalText 4294967295 = ['4', '2', '9', '4', '9', '6', '7', '2', '9', '5'] := by decide
theorem test_witness_CommandsCompleteInOrder :
    halted (blockWith true [.command 0x003E8006400000019, .command 0x203E800640000000A]) = false ∧
    AllComplete [0x003E8006400000019, 0x203E800640000000A] := by
  refine ⟨by decide, fun w hw => ?_⟩
  rcases List.mem_cons.1 hw with rfl | hw
  · exact ⟨BitVec.ofInt 16 (-250), by decide⟩
  · rcases List.mem_cons.1 hw with rfl | hw
    · exact ⟨250, by decide⟩
    · exact absurd hw (by simp)
theorem test_witness_FirstFaultEndsTheCommands :
    halted (blockWith false [.command 0x203E800640000000A, .command 0x303E8000000000005, .command 0]) = false ∧
    AllComplete [0x203E800640000000A] ∧ waveOfWord 0x303E8000000000005 = .fault .zeroPeriod := by
  refine ⟨by decide, fun w hw => ?_, by decide⟩
  obtain rfl := List.mem_singleton.1 hw
  exact ⟨250, by decide⟩

end Sys2Proof.Tests
end

section
/-! The five meanings as the shared envelope of a command (R81, R34), and what a step keeps of the build parameter and of
the items delivered. -/

namespace Sys2Proof.Machine

/-! ### One equation per instruction, and the inversion of `exec` -/

section
variable (volume : Volume) (period : Period) (phase : Phase) (s : State)

theorem exec_sawtooth : exec (.sawtooth volume period phase) s =
    runTracedCommand (sawtoothResult volume period phase) period phase s := rfl

theorem exec_triangle : exec (.triangle volume period phase) s =
    runCommand (triangleResult volume period phase) s := rfl

theorem exec_square : exec (.square volume period phase) s =
    runCommand (squareResult volume period phase) s := rfl

theorem exec_sine : exec (.sine volume period phase) s =
    runCommand (sineResult volume period phase) s := rfl

theorem exec_test : exec (.test volume period phase) s =
    runCommand (testResult volume period phase) s := rfl

end

theorem exec_of_op_eq_sawtooth (i : Instr) (h : i.op = .sawtooth) (s : State) :
    exec i s = runTracedCommand (sawtoothResult i.volume i.period i.phase) i.period i.phase s := by
  cases i with
  | sawtooth v p ph => exact exec_sawtooth v p ph s
  | triangle | square | sine | test => cases h

/-- Every other operation ends with a result that depends on the command alone, and does not trace (R34). -/
theorem exec_of_op_ne_sawtooth (i : Instr) (h : i.op ≠ .sawtooth) : ∃ r, ∀ s, exec i s = runCommand r s := by
  cases i with
  | sawtooth => exact absurd rfl h
  | triangle v p ph => exact ⟨_, exec_triangle v p ph⟩
  | square v p ph => exact ⟨_, exec_square v p ph⟩
  | sine v p ph => exact ⟨_, exec_sine v p ph⟩
  | test v p ph => exact ⟨_, exec_test v p ph⟩

/-- An instruction with a next state found the block not halted and ended it with some result; `sawtooth` and no other
operation ends with the trace event before its response (R34, R81, R127). -/
theorem exec_cases (i : Instr) (s t : State) (h : exec i s = .next t) :
    halted s = false ∧ ∃ r,
      (i.op = .sawtooth ∧ t = deliverTraced r i.period i.phase s) ∨ (i.op ≠ .sawtooth ∧ t = deliver r s) := by
  by_cases hop : i.op = .sawtooth
  · rw [exec_of_op_eq_sawtooth i hop, runTracedCommand_eq_next_iff] at h
    exact ⟨h.1, _, .inl ⟨hop, h.2⟩⟩
  · obtain ⟨r, hexec⟩ := exec_of_op_ne_sawtooth i hop
    rw [hexec, runCommand_eq_next_iff] at h
    exact ⟨h.1, r, .inr ⟨hop, h.2⟩⟩

/-! ### The build parameter and the items delivered -/

@[simp] theorem deliver_traceEnable (r : Result) (s : State) : (deliver r s).traceEnable = s.traceEnable := by
  cases r <;> simp

@[simp] theorem deliverTraced_traceEnable (r : Result) (p : Period) (ph : Phase) (s : State) :
    (deliverTraced r p ph s).traceEnable = s.traceEnable := by
  cases r <;> simp

theorem outputs_prefix_emitTrace (p : Period) (ph : Phase) (s : State) :
    s.outputs <+: (emitTrace p ph s).outputs := by
  rw [emitTrace_outputs]
  split <;> simp

theorem outputs_prefix_complete (x : Sample) (s : State) : s.outputs <+: (complete x s).outputs := by
  simp

theorem outputs_prefix_deliver (r : Result) (s : State) : s.outputs <+: (deliver r s).outputs := by
  cases r with
  | fault c => simp
  | sample x => exact outputs_prefix_complete x s

theorem outputs_prefix_deliverTraced (r : Result) (p : Period) (ph : Phase) (s : State) :
    s.outputs <+: (deliverTraced r p ph s).outputs := by
  cases r with
  | fault c => simp
  | sample x => exact (outputs_prefix_emitTrace p ph s).trans (outputs_prefix_complete x _)

theorem exec_keeps_traceEnable_and_delivered (i : Instr) (s t : State) (h : exec i s = .next t) :
    t.traceEnable = s.traceEnable ∧ s.outputs <+: t.outputs := by
  obtain ⟨-, r, ⟨-, rfl⟩ | ⟨-, rfl⟩⟩ := exec_cases i s t h
  · exact ⟨deliverTraced_traceEnable .., outputs_prefix_deliverTraced ..⟩
  · exact ⟨deliver_traceEnable .., outputs_prefix_deliver ..⟩

/-- Settles O14, by the cases of a step: only an instruction delivers, and it appends what it delivers. -/
theorem stepKeepsTraceEnableAndDelivered : Obligations.StepKeepsTraceEnableAndDelivered := by
  intro s t h
  rcases step_cases s t h with ⟨-, -, rfl⟩ | ⟨rest, -, -, rfl⟩ | ⟨rest, -, -, rfl⟩ |
    ⟨w, rest, i, -, -, -, hexec⟩ | ⟨w, rest, op, -, -, -, rfl⟩
  · exact ⟨rfl, List.prefix_rfl⟩
  · simp
  · simp
  · exact exec_keeps_traceEnable_and_delivered i (withInputs rest s) t hexec
  · simp

end Sys2Proof.Machine
end

section
/-! The state's values at reset (R22), the result of a command (R10, R20, R156), and the two invariants of the wrapper
state (R12, R16): what the block looks like after any step, said once, and each invariant in those cases. -/

namespace Sys2Proof.Machine

/-! ### The result of a command -/

/-- Settles O9: `sawtooth` ends in the envelope that traces and every other operation in the one that does not, each with
a result taken from the command's operands. -/
theorem resultDependsOnCommandOnly : Obligations.ResultDependsOnCommandOnly := by
  intro i
  by_cases hop : i.op = .sawtooth
  · refine ⟨sawtoothResult i.volume i.period i.phase, fun s hs => ?_⟩
    rw [if_pos hop]
    exact (exec_of_op_eq_sawtooth i hop s).trans (runTracedCommand_of_not_halted _ _ _ s hs)
  · obtain ⟨r, hexec⟩ := exec_of_op_ne_sawtooth i hop
    refine ⟨r, fun s hs => ?_⟩
    rw [if_neg hop]
    exact (hexec s).trans (runCommand_of_not_halted r s hs)

/-- The whole next state of an instruction: a fault taken or a sample delivered, by a block that is not halted. -/
theorem exec_eq_after (i : Instr) (s t : State) (h : exec i s = .next t) :
    halted s = false ∧ ((∃ c, t = afterFault s c) ∨ ∃ before x, t = afterSample s before x) := by
  obtain ⟨hs, -⟩ := exec_cases i s t h
  obtain ⟨r, hr⟩ := resultDependsOnCommandOnly i
  rw [hr s hs] at h
  cases r with
  | fault c => exact ⟨hs, .inl ⟨c, (Host.Outcome.next.inj h).symm⟩⟩
  | sample x => exact ⟨hs, .inr ⟨_, x, (Host.Outcome.next.inj h).symm⟩⟩

/-- The whole next state of a step: the same state, a reset, a fault taken, or a sample delivered by a block that is not
halted. -/
theorem step_eq_after (s t : State) (h : step s = .next t) :
    t = s ∨ (∃ rest, t = afterReset s rest) ∨ (∃ rest c, t = afterFault (withInputs rest s) c) ∨
    (halted s = false ∧ ∃ rest before x, t = afterSample (withInputs rest s) before x) := by
  rcases step_cases s t h with ⟨-, -, rfl⟩ | ⟨rest, -, -, rfl⟩ | ⟨rest, -, -, rfl⟩ |
    ⟨w, rest, i, hs, -, -, hexec⟩ | ⟨w, rest, op, -, -, -, rfl⟩
  · exact .inl rfl
  · exact .inr (.inl ⟨rest, resetBlock_eq_afterReset s rest⟩)
  · exact .inr (.inl ⟨rest, resetBlock_eq_afterReset s rest⟩)
  · obtain ⟨-, ⟨c, rfl⟩ | ⟨before, x, rfl⟩⟩ := exec_eq_after i (withInputs rest s) t hexec
    · exact .inr (.inr (.inl ⟨rest, c, rfl⟩))
    · exact .inr (.inr (.inr ⟨hs, rest, before, x, rfl⟩))
  · exact .inr (.inr (.inl ⟨rest, _, raiseFault_eq_afterFault _ _⟩))

/-! ### The three invariants of the wrapper state -/

theorem blockConsistent_reset : BlockConsistent State.reset.block := by simp [BlockConsistent]

theorem blockConsistent_afterReset (s : State) (rest : List Input) : BlockConsistent (afterReset s rest).block :=
  blockConsistent_reset

theorem blockConsistent_afterFault (s : State) (c : FaultCause) : BlockConsistent (afterFault s c).block := by
  simp [BlockConsistent, afterFault]

/-- A completion sets `VALID` and leaves `FAULT` and `CAUSE`, so it keeps R12 only because the block is not halted. -/
theorem blockConsistent_afterSample (s : State) (before : List Output) (x : Sample) (hs : halted s = false)
    (h : BlockConsistent s.block) : BlockConsistent (afterSample s before x).block := by
  obtain ⟨-, -, hcause⟩ := h
  have hfault : statusFault s.block.status = false := hs
  simp [BlockConsistent, afterSample, hfault, hcause.1 hfault]

/-- Settles O12, by the four whole next states of a step. -/
theorem stepKeepsBlockConsistent : Obligations.StepKeepsBlockConsistent := by
  intro s t hinv h
  rcases step_eq_after s t h with rfl | ⟨rest, rfl⟩ | ⟨rest, c, rfl⟩ | ⟨hs, rest, before, x, rfl⟩
  · exact hinv
  · exact blockConsistent_afterReset s rest
  · exact blockConsistent_afterFault (withInputs rest s) c
  · exact blockConsistent_afterSample (withInputs rest s) before x hs hinv

/-! ### `SAMPLE` is the last response -/

/-- While `VALID` = 0 nothing is claimed of `SAMPLE` (R12). -/
theorem sampleIsLastResponse_of_not_valid (s : State) (h : statusValid s.block.status = false) :
    SampleIsLastResponse s := fun hvalid => absurd (h.symm.trans hvalid) Bool.false_ne_true

/-- A completion delivers the response last of all, after any trace event (R34, R81). -/
theorem responses_afterSample (s : State) (before : List Output) (x : Sample) :
    responses (afterSample s before x) = responses s ++ responsesOf before ++ [x] := by
  simp [responses, afterSample]

theorem sampleIsLastResponse_afterSample (s : State) (before : List Output) (x : Sample) :
    SampleIsLastResponse (afterSample s before x) := by
  intro _
  rw [responses_afterSample, List.getLast?_concat]
  rfl

/-- Settles O13, by the four whole next states of a step: a reset and a fault leave `VALID` 0. -/
theorem stepKeepsSampleIsLastResponse : Obligations.StepKeepsSampleIsLastResponse := by
  intro s t hinv h
  rcases step_eq_after s t h with rfl | ⟨rest, rfl⟩ | ⟨rest, c, rfl⟩ | ⟨-, rest, before, x, rfl⟩
  · exact hinv
  · exact sampleIsLastResponse_of_not_valid _ statusValid_zero
  · exact sampleIsLastResponse_of_not_valid _ (statusValid_mkStatus ..)
  · exact sampleIsLastResponse_afterSample (withInputs rest s) before x

/-! ### Reset -/

/-- Settles O11: both registers are cleared, so no sample is there to be valid and no fault to have a cause. -/
theorem resetSatisfiesTheInvariants : Obligations.ResetSatisfiesTheInvariants :=
  ⟨blockConsistent_reset, sampleIsLastResponse_of_not_valid _ statusValid_zero⟩

/-- A block that is not halted runs the word presented ahead of every other event (R31; log 6). -/
theorem step_presentWord (s : State) (w : CmdWord) (i : Instr) (hs : halted s = false)
    (hw : decode w = .instr i) : step (presentWord w s) = exec i s := by
  have hnext : nextEvent (presentWord w s) = .command w s.inputs := by simp [nextEvent, hs]
  have hback : withInputs s.inputs (presentWord w s) = s := rfl
  simp only [step, hnext, hw, hback]

/-- Settles O1: the fields of the cleared registers, and a block that is not halted runs the word presented next. -/
theorem resetLeavesSpecValues : Obligations.ResetLeavesSpecValues := by
  have hs : halted State.reset = false := statusFault_zero
  exact ⟨rfl, statusValid_zero, statusFault_zero, statusCause_zero, hs, hs, rfl,
    fun w i hw => step_presentWord State.reset w i hs hw⟩

end Sys2Proof.Machine
end

section
/-! What a step does with a presented word (R31, R81): the instruction it runs, the whole next state as a fault, a traced
completion or a completion without trace, and what that delivers (R33, R34, R41, R129). -/

namespace Sys2Proof.Machine

/-! ### The step on a presented word -/

section
variable {s : State} {w : CmdWord} {rest : List Input}

theorem nextEvent_of_command (hs : halted s = false) (hi : s.inputs = .command w :: rest) :
    nextEvent s = .command w rest := by
  simp [nextEvent, hs, hi]

theorem step_of_decode_instr {i : Instr} (hs : halted s = false) (hi : s.inputs = .command w :: rest)
    (hd : decode w = .instr i) : step s = exec i (withInputs rest s) := by
  simp only [step, nextEvent_of_command hs hi, hd]

theorem step_of_decode_illegalOp {op : OpField} (hs : halted s = false) (hi : s.inputs = .command w :: rest)
    (hd : decode w = .illegalOp op) : step s = .next (raiseFault .illegalOp (withInputs rest s)) := by
  simp only [step, nextEvent_of_command hs hi, hd]

end

/-- Settles O3: the word presented first is the next event of a block that is not halted. -/
theorem stepRunsDecodedInstruction : Obligations.StepRunsDecodedInstruction :=
  fun _ _ _ _ hs hi hd _ => step_of_decode_instr hs hi hd

/-! ### `sawtooth` words and all others -/

theorem decode_of_opField_eq_zero (w : CmdWord) (hw : opField w = 0) :
    decode w = .instr (.sawtooth (volumeField w) (periodField w) (phaseField w)) := by
  rw [decode, hw]
  rfl

/-- Only `OP` = 0 decodes to a `sawtooth` (R54). -/
theorem opField_eq_zero_of_decode_sawtooth (w : CmdWord) (i : Instr) (hd : decode w = .instr i)
    (hop : i.op = .sawtooth) : opField w = 0 := by
  unfold decode at hd
  generalize opField w = n at hd ⊢
  split at hd
  next op hn =>
    cases hd
    cases op with
    | sawtooth => revert n; decide
    | triangle | square | sine | test => cases hop
  next => cases hd

/-- The two ends of a `sawtooth`: the period alone decides between them (R80, R90). -/
theorem exec_sawtooth_eq_after (v : Volume) (p : Period) (ph : Phase) (s : State) (hs : halted s = false) :
    (p = 0 ∧ exec (.sawtooth v p ph) s = .next (afterFault s .zeroPeriod)) ∨
    (p ≠ 0 ∧ ∃ x, exec (.sawtooth v p ph) s = .next (afterSample s (traceBefore s p ph) x)) := by
  rw [exec_sawtooth, runTracedCommand_of_not_halted _ p ph s hs]
  rcases resultOf_cases p (sawtoothRaw (operand v) (operand p) (operand ph)) with ⟨hp, hr⟩ | ⟨hp, hr⟩
  · exact .inl ⟨hp, by rw [sawtoothResult, hr]⟩
  · exact .inr ⟨hp, _, by rw [sawtoothResult, hr]⟩

/-- The step on a word that is no `sawtooth`: some result is delivered without a trace event, for a reserved encoding the
fault ILLEGAL_OP (R34, R122). -/
theorem step_of_opField_ne_zero (s : State) (w : CmdWord) (rest : List Input) (hs : halted s = false)
    (hi : s.inputs = .command w :: rest) (hw : opField w ≠ 0) :
    ∃ r, step s = .next (deliver r (withInputs rest s)) := by
  cases hd : decode w with
  | instr i =>
    have hop : i.op ≠ .sawtooth := fun hop => hw (opField_eq_zero_of_decode_sawtooth w i hd hop)
    obtain ⟨r, hexec⟩ := exec_of_op_ne_sawtooth i hop
    refine ⟨r, ?_⟩
    rw [step_of_decode_instr hs hi hd, hexec, runCommand_eq_next_iff]
    exact ⟨hs, rfl⟩
  | illegalOp op => exact ⟨.fault .illegalOp, step_of_decode_illegalOp hs hi hd⟩

/-- All that a step can do with a presented word: a fault, never for a `sawtooth` whose period is not 0; the completion of
such a `sawtooth`, traced; or the completion of another operation. -/
theorem step_command_cases (s t : State) (w : CmdWord) (rest : List Input) (hs : halted s = false)
    (hi : s.inputs = .command w :: rest) (h : step s = .next t) :
    (¬ (opField w = 0 ∧ periodField w ≠ 0) ∧ ∃ c, t = afterFault (withInputs rest s) c) ∨
    (opField w = 0 ∧ periodField w ≠ 0 ∧
      ∃ x, t = afterSample (withInputs rest s) (traceBefore s (periodField w) (phaseField w)) x) ∨
    (opField w ≠ 0 ∧ ∃ x, t = afterSample (withInputs rest s) [] x) := by
  by_cases hw : opField w = 0
  · rw [step_of_decode_instr hs hi (decode_of_opField_eq_zero w hw)] at h
    rcases exec_sawtooth_eq_after (volumeField w) (periodField w) (phaseField w) (withInputs rest s) hs with
      ⟨hp, he⟩ | ⟨hp, x, he⟩ <;>
      obtain rfl := Host.Outcome.next.inj (he.symm.trans h)
    · exact .inl ⟨fun hc => hc.2 hp, _, rfl⟩
    · exact .inr (.inl ⟨hw, hp, x, rfl⟩)
  · obtain ⟨r, hr⟩ := step_of_opField_ne_zero s w rest hs hi hw
    obtain rfl := Host.Outcome.next.inj (hr.symm.trans h)
    cases r with
    | fault c => exact .inl ⟨fun hc => hw hc.1, c, raiseFault_eq_afterFault c _⟩
    | sample x => exact .inr (.inr ⟨hw, x, complete_eq_afterSample x _⟩)

/-! ### What an accepted word delivers -/

/-- A trace event is no response. -/
@[simp] theorem responsesOf_traceBefore (s : State) (p : Period) (ph : Phase) :
    responsesOf (traceBefore s p ph) = [] := by
  unfold traceBefore
  split <;> rfl

@[simp] theorem tracesOf_traceBefore (s : State) (p : Period) (ph : Phase) :
    tracesOf (traceBefore s p ph) = if s.traceEnable then [(p, ph)] else [] := by
  unfold traceBefore
  split <;> rfl

theorem traces_afterSample (s : State) (before : List Output) (x : Sample) :
    traces (afterSample s before x) = traces s ++ tracesOf before := by
  simp [traces, afterSample]

/-- The reads after a completion on a block that is not halted (R33, R38). -/
theorem reads_afterSample (s : State) (before : List Output) (x : Sample) (hs : halted s = false) :
    readSample (afterSample s before x) = some x ∧ statusValid (afterSample s before x).block.status = true ∧
      faultOutput (afterSample s before x) = false := by
  have hfault : statusFault s.block.status = false := hs
  simp [readSample, faultOutput, afterSample, hfault]

/-- One response and the reads that go with it, when nothing but trace events comes before the response (R33, R41). -/
theorem afterSample_delivers_once (s : State) (before : List Output) (x : Sample) (hs : halted s = false)
    (hbefore : responsesOf before = []) :
    responses (afterSample s before x) = responses s ++ [x] ∧ readSample (afterSample s before x) = some x ∧
      statusValid (afterSample s before x).block.status = true ∧ faultOutput (afterSample s before x) = false := by
  refine ⟨?_, reads_afterSample s before x hs⟩
  rw [responses_afterSample, hbefore, List.append_nil]

/-- A fault delivers nothing (R129). -/
theorem afterFault_delivers_nothing (s : State) (c : FaultCause) :
    (afterFault s c).outputs = s.outputs ∧ (afterFault s c).block.sample = none ∧
      statusValid (afterFault s c).block.status = false ∧ faultOutput (afterFault s c) = true :=
  ⟨rfl, rfl, statusValid_mkStatus .., statusFault_mkStatus ..⟩

/-- Settles O19, by the three ends of a presented word: a trace event adds no response. -/
theorem acceptedWordDeliversOnceOrFaults : Obligations.AcceptedWordDeliversOnceOrFaults := by
  intro s t w rest hs hi h
  rcases step_command_cases s t w rest hs hi h with ⟨-, c, rfl⟩ | ⟨-, -, x, rfl⟩ | ⟨-, x, rfl⟩
  · exact .inr (afterFault_delivers_nothing (withInputs rest s) c)
  · exact .inl ⟨x, afterSample_delivers_once (withInputs rest s) _ x hs (responsesOf_traceBefore ..)⟩
  · exact .inl ⟨x, afterSample_delivers_once (withInputs rest s) [] x hs responsesOf_nil⟩

/-- Settles O20, by the three ends of a presented word: the traces stay as they are in all but the completion of a
`sawtooth` with tracing on. -/
theorem onlyCompletingSawtoothTraces : Obligations.OnlyCompletingSawtoothTraces := by
  intro s t w rest hs hi h
  rcases step_command_cases s t w rest hs hi h with ⟨hno, c, rfl⟩ | ⟨hw, hp, x, rfl⟩ | ⟨hw, x, rfl⟩
  · have hsame : traces (afterFault (withInputs rest s) c) = traces s := rfl
    rw [if_neg (fun hc => hno hc.2), List.append_nil]
    exact ⟨hsame, fun hne => absurd hsame hne⟩
  · have htraces : traces (afterSample (withInputs rest s) (traceBefore s (periodField w) (phaseField w)) x) =
        traces s ++ if s.traceEnable then [(periodField w, phaseField w)] else [] := by
      rw [traces_afterSample, tracesOf_traceBefore]
      rfl
    simp only [and_iff_left (show opField w = 0 ∧ periodField w ≠ 0 from ⟨hw, hp⟩)]
    refine ⟨htraces, fun hne => ⟨x, ?_⟩⟩
    cases htrace : s.traceEnable with
    | true => simp [afterSample, traceBefore, htrace]
    | false => exact absurd (by simpa [htrace] using htraces) hne
  · have hsame : traces (afterSample (withInputs rest s) [] x) = traces s := by
      rw [traces_afterSample, tracesOf_nil, List.append_nil]
      rfl
    rw [if_neg (fun hc => hw hc.2.1), List.append_nil]
    exact ⟨hsame, fun hne => absurd hsame hne⟩

end Sys2Proof.Machine
end

section
/-! The decoder and the encoder (R50, R54, R57): a command word is its four fields side by side, so decoding inverts
encoding, and only the `OP` field decides between the five operations and a reserved encoding. -/

namespace Sys2Proof

/-! ### Commands as their parts, words as their fields -/

@[simp] theorem Instr.ofParts_parts (i : Instr) : Instr.ofParts i.op i.volume i.period i.phase = i := by
  cases i <;> rfl

@[simp] theorem Instr.op_ofParts (op : Op) (v : Volume) (p : Period) (ph : Phase) :
    (Instr.ofParts op v p ph).op = op := by
  cases op <;> rfl

theorem encode_ofParts (op : Op) (v : Volume) (p : Period) (ph : Phase) :
    encode (Instr.ofParts op v p ph) = opNumber op ++ v ++ p ++ ph := by
  cases op <;> rfl

/-- The four fields leave out no bit of the word (R50). -/
theorem append_fields (w : CmdWord) : opField w ++ volumeField w ++ periodField w ++ phaseField w = w := by
  have hop : opField w ++ volumeField w = w.extractLsb' 48 19 :=
    BitVec.extractLsb'_append_extractLsb'_eq_extractLsb' rfl
  have hperiod : w.extractLsb' 48 19 ++ periodField w = w.extractLsb' 32 35 :=
    BitVec.extractLsb'_append_extractLsb'_eq_extractLsb' rfl
  have hphase : w.extractLsb' 32 35 ++ phaseField w = w.extractLsb' 0 67 :=
    BitVec.extractLsb'_append_extractLsb'_eq_extractLsb' rfl
  rw [hop, hperiod, hphase, BitVec.extractLsb'_eq_self]

/-- A vector put above another is shifted up by the other's width. -/
theorem toNat_append_eq_add {m n : Nat} (x : BitVec m) (y : BitVec n) :
    (x ++ y).toNat = x.toNat * 2 ^ n + y.toNat := by
  rw [BitVec.toNat_append, ← Nat.shiftLeft_add_eq_or_of_lt y.isLt, Nat.shiftLeft_eq]

/-! ### The operation of an `OP` number (R54, R56) -/

theorem opOfNumber_eq_some_iff (n : OpField) (op : Op) : opOfNumber n = some op ↔ opNumber op = n := by
  revert n
  cases op <;> decide

theorem opOfNumber_eq_none_iff (n : OpField) : opOfNumber n = none ↔ 5 ≤ n.toNat := by
  revert n
  decide

/-! ### The two answers of the decoder -/

/-- A word decodes to the one instruction that encodes to it (R57, R62). -/
theorem decode_eq_instr_iff (w : CmdWord) (i : Instr) : decode w = .instr i ↔ encode i = w := by
  constructor
  · intro h
    unfold decode at h
    split at h
    next op hop =>
      cases h
      rw [encode_ofParts, (opOfNumber_eq_some_iff _ _).1 hop, append_fields]
    next => cases h
  · rintro rfl
    obtain ⟨hop, hvolume, hperiod, hphase⟩ := Laws.fields_of_append (opNumber i.op) i.volume i.period i.phase
    have hnumber : opOfNumber (opNumber i.op) = some i.op := (opOfNumber_eq_some_iff _ _).2 rfl
    simp only [decode, encode, hop, hvolume, hperiod, hphase, hnumber, Instr.ofParts_parts]

theorem exists_decode_eq_instr_iff (w : CmdWord) : (∃ i, decode w = .instr i) ↔ (opField w).toNat < 5 := by
  rw [← Nat.not_le, ← opOfNumber_eq_none_iff]
  cases hop : opOfNumber (opField w) <;> simp [decode, hop]

theorem exists_decode_eq_illegalOp_iff (w : CmdWord) :
    (∃ op, decode w = .illegalOp op) ↔ 5 ≤ (opField w).toNat := by
  rw [← opOfNumber_eq_none_iff]
  cases hop : opOfNumber (opField w) <;> simp [decode, hop]

/-- Settles O46: a word decodes to exactly the instruction that encodes to it, and to some instruction unless its `OP` is
5 to 7. -/
theorem decodeAndEncodeAreInverse : Obligations.DecodeAndEncodeAreInverse :=
  ⟨fun i _ => (decode_eq_instr_iff (encode i) i).2 rfl,
   fun w i => (decode_eq_instr_iff w i).1,
   fun w hop => (exists_decode_eq_instr_iff w).2 (Nat.lt_succ_of_le hop)⟩

/-- Settles O47: each field is shifted up by the widths of those below it. -/
theorem encodedWordAsNumber : Obligations.EncodedWordAsNumber := by
  intro i
  rw [encode, toNat_append_eq_add, toNat_append_eq_add, toNat_append_eq_add]
  ring

theorem toNat_opField (w : CmdWord) : (opField w).toNat = w.toNat / 2 ^ 64 := by
  rw [opField, BitVec.extractLsb'_toNat, Nat.shiftRight_eq_div_pow, Nat.mod_eq_of_lt]
  exact Nat.div_lt_of_lt_mul w.isLt

/-- Settles O49: the `OP` field is the word divided by 2^64. -/
theorem illegalWordsAreTheReservedOnes : Obligations.IllegalWordsAreTheReservedOnes := by
  intro w
  rw [exists_decode_eq_illegalOp_iff, toNat_opField, Nat.le_div_iff_mul_le (by positivity)]

/-! ### Match and mask (R54) -/

/-- The mask of the table keeps the `OP` field and clears the rest. -/
theorem and_opMask (w : CmdWord) : w &&& 0x70000000000000000 = opField w ++ (0 : BitVec 64) := by
  have hmask : (0x70000000000000000 : CmdWord) = (7 : OpField) ++ (0 : BitVec 64) := by decide
  have hword : opField w ++ w.extractLsb' 0 64 = w :=
    (BitVec.extractLsb'_append_extractLsb'_eq_extractLsb' rfl).trans BitVec.extractLsb'_eq_self
  have hop : opField w &&& 7 = opField w := BitVec.and_allOnes
  calc w &&& 0x70000000000000000
      = (opField w ++ w.extractLsb' 0 64) &&& ((7 : OpField) ++ (0 : BitVec 64)) := by rw [hword, hmask]
    _ = opField w ++ (0 : BitVec 64) := by rw [BitVec.and_append, hop, BitVec.ofNat_eq_ofNat, BitVec.and_zero]

theorem row_of_mem_opcodeRows : ∀ r ∈ opcodeRows,
    r.mask = 0x70000000000000000 ∧ r.pattern = opNumber r.op ++ (0 : BitVec 64) := by
  decide

/-- A row is selected by its `OP` number. -/
theorem and_mask_beq_pattern (w : CmdWord) (r : OpcodeRow) (hr : r ∈ opcodeRows) :
    (w &&& r.mask == r.pattern) = (opField w == opNumber r.op) := by
  obtain ⟨hmask, hpattern⟩ := row_of_mem_opcodeRows r hr
  rw [hmask, hpattern, and_opMask, Bool.eq_iff_iff, beq_iff_eq, beq_iff_eq, BitVec.append_left_inj]

theorem rowsSelected_eq (w : CmdWord) : rowsSelected w = (opOfNumber (opField w)).toList := by
  have hfilter : opcodeRows.filter (fun r => w &&& r.mask == r.pattern) =
      opcodeRows.filter (fun r => opField w == opNumber r.op) :=
    List.filter_congr fun r hr => and_mask_beq_pattern w r hr
  rw [rowsSelected, hfilter]
  generalize opField w = n
  revert n
  decide

/-- Settles O48: a word selects the row of its `OP` number, by which it also decodes. -/
theorem oneRowSelectsEachOperation : Obligations.OneRowSelectsEachOperation := by
  intro w
  rw [rowsSelected_eq]
  cases hop : opOfNumber (opField w) <;> simp [decode, hop]

/-- Settles O45: each word evaluated. -/
theorem specWordsDecode : Obligations.SpecWordsDecode := by
  unfold Obligations.SpecWordsDecode
  decide

end Sys2Proof
end

section
/-! A table word as the next command (R31; log 6, log 11), and volume 0 through every waveform (R52). -/

namespace Sys2Proof.Machine

theorem decodeTableWord_eq_some_iff (nbits w : Nat) (i : Instr) :
    decodeTableWord nbits w = some i ↔ ∃ c, tableWord nbits w = some c ∧ decode c = .instr i := by
  unfold decodeTableWord
  cases tableWord nbits w with
  | none => simp
  | some c => cases hd : decode c <;> simp [hd]

theorem withFetchWord_of_tableWord {nbits w : Nat} {c : CmdWord} (h : tableWord nbits w = some c) (s : State) :
    s.withFetchWord nbits w = presentWord c s := by
  simp only [State.withFetchWord, presentTableWord, h]

/-- Settles O4: `withFetchWord` presents the word that the table's bits are. -/
theorem fetchWordIsRunNext : Obligations.FetchWordIsRunNext := by
  intro s nbits w i hs h
  obtain ⟨c, hc, hd⟩ := (decodeTableWord_eq_some_iff nbits w i).1 h
  rw [withFetchWord_of_tableWord hc, step_presentWord s c i hs hd]

/-! ### Volume 0 -/

@[simp] theorem tdiv_zero_left (b : Int) : tdiv 0 b = 0 := by simp [tdiv]

@[simp] theorem sawtoothRaw_zero_volume (period phase : Nat) : sawtoothRaw 0 period phase = 0 := by
  simp [sawtoothRaw]

@[simp] theorem triangleRaw_zero_volume (period phase : Nat) : triangleRaw 0 period phase = 0 := by
  simp [triangleRaw]

@[simp] theorem squareRaw_zero_volume (period phase : Nat) : squareRaw 0 period phase = 0 := by
  simp [squareRaw]

@[simp] theorem coefficients_zero_volume : coefficients 0 = { a := 0, b := 0, c := 0 } := by
  simp [coefficients, coefficient]

/-- With all coefficients 0 every product of the chain is 0 (R101, R104). -/
@[simp] theorem cubic_zero_volume (p : Nat) (xq : Int) : cubic 0 p xq = 0 := by
  simp [cubic, cubicChain]

@[simp] theorem sineRaw_zero_volume (period phase : Nat) : sineRaw 0 period phase = 0 := by
  simp [sineRaw, applySectionSign]

@[simp] theorem testRaw_zero_volume (period phase : Nat) : testRaw 0 period phase = 0 :=
  sineRaw_zero_volume period _

theorem rawOf_zero_volume (op period phase : Nat) : rawOf op 0 period phase = 0 := by
  unfold rawOf
  split <;> simp

/-- The one period whose inner period wraps to 0 is 46812 (R116). -/
theorem innerPeriod_formula_eq_zero_iff (p : Period) (hp : p ≠ 0) :
    trunc16 (tdiv (p.toNat * 7) 5) = 0 ↔ p = 46812 := by
  have hquotient : tdiv (p.toNat * 7) 5 = ((p.toNat * 7 / 5 : Nat) : Int) := tdiv_natCast (p.toNat * 7) 5
  have hpos : p.toNat ≠ 0 := fun h => hp (BitVec.eq_of_toNat_eq h)
  have hlt : p.toNat < 65536 := p.isLt
  have hnumber : p = 46812 ↔ p.toNat = 46812 := BitVec.toNat_inj.symm
  have hwrap : p.toNat * 7 / 5 % 65536 = 0 ↔ p.toNat * 7 / 5 = 65536 := by omega
  rw [hquotient, trunc16_natCast, hnumber, hwrap]
  omega

/-- Settles O40: none of the three faults is taken, and the raw result of volume 0 is 0. -/
theorem zeroVolumeIsSilent : Obligations.ZeroVolumeIsSilent := by
  intro op p ph hop hp htest
  have hlegal : ¬ op.toNat ≥ 5 := by omega
  have hinner : ¬ (op.toNat = 4 ∧ trunc16 (tdiv (p.toNat * 7) 5) = 0) := fun ⟨hfour, hzero⟩ =>
    htest (BitVec.eq_of_toNat_eq hfour) ((innerPeriod_formula_eq_zero_iff p hp).1 hzero)
  rw [wave, if_neg hlegal, if_neg hp, if_neg hinner, BitVec.ofNat_eq_ofNat, BitVec.toNat_ofNat, Nat.zero_mod,
    rawOf_zero_volume]
  rfl

end Sys2Proof.Machine
end

section
/-! The digits of a number (R51, R60): what the two printing loops write is read back as the number, and holds none of the
characters that have a meaning of their own in a line. -/

namespace Sys2Proof.Machine

/-! ### Reading digits back -/

theorem digitValue_digitChar {base d : Nat} (hbase : base ≤ 16) (hd : d < base) :
    digitValue base (digitChar d) = some d := by
  have hall : ∀ b ≤ 16, ∀ d < b, digitValue b (digitChar d) = some d := by decide
  exact hall base hbase d hd

theorem readDigits_digitChar_cons {base d : Nat} (hbase : base ≤ 16) (hd : d < base) (acc : Nat) (t : List Char) :
    readDigits base acc (digitChar d :: t) = readDigits base (acc * base + d) t := by
  rw [readDigits, digitValue_digitChar hbase hd, Option.bind_some]

theorem readNumber_of_ne_nil (base : Nat) {t : List Char} (h : t ≠ []) : readNumber base t = readDigits base 0 t := by
  cases t with
  | nil => exact absurd rfl h
  | cons => rfl

/-- The digits that the loop puts before `acc` are read as the number it was given. -/
theorem readDigits_decimalLoop (fuel n : Nat) (acc : List Char) (h : n < 10 ^ fuel) :
    readDigits 10 0 (decimalLoop fuel n acc) = readDigits 10 n acc := by
  induction fuel generalizing n acc with
  | zero =>
    obtain rfl : n = 0 := by omega
    rfl
  | succ fuel ih =>
    have hdigit : n % 10 < 10 := Nat.mod_lt _ (by decide)
    rw [decimalLoop]
    split
    next hlt => rw [readDigits_digitChar_cons (by decide) hlt, Nat.zero_mul, Nat.zero_add]
    next => rw [ih _ _ (by omega), readDigits_digitChar_cons (by decide) hdigit, Nat.div_add_mod']

theorem readDigits_hexLoop (k n : Nat) (acc : List Char) (h : n < 16 ^ k) :
    readDigits 16 0 (hexLoop k n acc) = readDigits 16 n acc := by
  induction k generalizing n acc with
  | zero =>
    obtain rfl : n = 0 := by omega
    rfl
  | succ k ih =>
    have hdigit : n % 16 < 16 := Nat.mod_lt _ (by decide)
    rw [hexLoop, ih _ _ (by omega), readDigits_digitChar_cons (by decide) hdigit, Nat.div_add_mod']

theorem decimalLoop_succ_ne_nil (fuel n : Nat) (acc : List Char) : decimalLoop (fuel + 1) n acc ≠ [] := by
  induction fuel generalizing n acc with
  | zero => rw [decimalLoop, decimalLoop]; split <;> exact List.cons_ne_nil _ _
  | succ fuel ih =>
    rw [decimalLoop]
    split
    next => exact List.cons_ne_nil _ _
    next => exact ih _ _

theorem decimalText_ne_nil (n : Nat) : decimalText n ≠ [] := decimalLoop_succ_ne_nil 9 n []

theorem readNumber_decimalText {n : Nat} (h : n < 10 ^ 10) : readNumber 10 (decimalText n) = some n := by
  rw [readNumber_of_ne_nil 10 (decimalText_ne_nil n), decimalText, readDigits_decimalLoop 10 n [] h, readDigits]

@[simp] theorem length_hexLoop (k n : Nat) (acc : List Char) : (hexLoop k n acc).length = k + acc.length := by
  induction k generalizing n acc with
  | zero => simp [hexLoop]
  | succ k ih => rw [hexLoop, ih, List.length_cons]; omega

theorem readNumber_hexLoop {n : Nat} (h : n < 16 ^ 17) : readNumber 16 (hexLoop 17 n []) = some n := by
  have hne : hexLoop 17 n [] ≠ [] := List.ne_nil_of_length_pos (by simp)
  rw [readNumber_of_ne_nil 16 hne, readDigits_hexLoop 17 n [] h, readDigits]

/-! ### The characters of a number -/

/-- The text is made of digits as they are printed, decimal or hexadecimal. -/
def AllDigits (t : List Char) : Prop := ∀ c ∈ t, ∃ d < 16, c = digitChar d

theorem AllDigits.nil : AllDigits [] := by simp [AllDigits]

theorem AllDigits.digitChar_cons {d : Nat} {t : List Char} (hd : d < 16) (ht : AllDigits t) :
    AllDigits (digitChar d :: t) :=
  List.forall_mem_cons.2 ⟨⟨d, hd, rfl⟩, ht⟩

/-- The characters that a line or a literal treats apart, besides those of the mnemonics. -/
def markChars : List Char := [' ', '\t', ';', ',', '(', 'x']

theorem AllDigits.mark_notMem {t : List Char} (ht : AllDigits t) {c : Char} (hc : c ∈ markChars) : c ∉ t := by
  have hall : ∀ d < 16, digitChar d ∉ markChars := by decide
  intro hmem
  obtain ⟨d, hd, rfl⟩ := ht c hmem
  exact hall d hd hc

theorem allDigits_decimalLoop (fuel n : Nat) {acc : List Char} (hacc : AllDigits acc) :
    AllDigits (decimalLoop fuel n acc) := by
  induction fuel generalizing n acc with
  | zero => exact hacc
  | succ fuel ih =>
    rw [decimalLoop]
    split
    next hlt => exact hacc.digitChar_cons (by omega)
    next => exact ih _ (hacc.digitChar_cons (by omega))

theorem allDigits_hexLoop (k n : Nat) {acc : List Char} (hacc : AllDigits acc) : AllDigits (hexLoop k n acc) := by
  induction k generalizing n acc with
  | zero => exact hacc
  | succ k ih => exact ih _ (hacc.digitChar_cons (Nat.mod_lt _ (by decide)))

theorem allDigits_decimalText (n : Nat) : AllDigits (decimalText n) := allDigits_decimalLoop 10 n .nil

/-- A decimal number is no hexadecimal literal, as no `x` stands in it (R60). -/
theorem readLiteral_decimalText {n : Nat} (h : n < 10 ^ 10) : readLiteral (decimalText n) = some n := by
  have hx : 'x' ∉ decimalText n := (allDigits_decimalText n).mark_notMem (by decide)
  unfold readLiteral
  split
  next rest htext => simp [htext] at hx
  next => exact readNumber_decimalText h

end Sys2Proof.Machine
end

section
/-! The assembler on a line (R60, R61): what trimming, comments and commas leave of it, and the line of a mnemonic or of
`.word` as the word it stands for. -/

namespace Sys2Proof.Machine

/-! ### White space, comments and commas -/

/-- Text that trimming does not shorten, whatever stands beside it. -/
def Solid (t : List Char) : Prop := t ≠ [] ∧ ∀ c ∈ t, isBlank c = false

theorem Solid.reverse {t : List Char} (h : Solid t) : Solid t.reverse :=
  ⟨List.reverse_ne_nil_iff.2 h.1, fun c hc => h.2 c (List.mem_reverse.1 hc)⟩

theorem Solid.dropWhile_append {t : List Char} (h : Solid t) (u : List Char) :
    (t ++ u).dropWhile isBlank = t ++ u := by
  obtain ⟨hne, hblank⟩ := h
  cases t with
  | nil => exact absurd rfl hne
  | cons c t => simp [hblank c List.mem_cons_self]

theorem trim_append {a b : List Char} (ha : Solid a) (m : List Char) (hb : Solid b) :
    trim (a ++ m ++ b) = a ++ m ++ b := by
  have hreverse : (a ++ m ++ b).reverse = b.reverse ++ (a ++ m).reverse := List.reverse_append
  rw [trim, List.append_assoc, ha.dropWhile_append, ← List.append_assoc, hreverse, hb.reverse.dropWhile_append,
    ← hreverse, List.reverse_reverse]

theorem Solid.trim_eq {t : List Char} (h : Solid t) : trim t = t := by
  have hstart : t.dropWhile isBlank = t := by simpa using h.dropWhile_append []
  have hend : t.reverse.dropWhile isBlank = t.reverse := by simpa using h.reverse.dropWhile_append []
  rw [trim, hstart, hend, List.reverse_reverse]

@[simp] theorem trim_space_cons (t : List Char) : trim (' ' :: t) = trim t := rfl

theorem stripComment_eq_self {t : List Char} (h : ';' ∉ t) : stripComment t = t := by
  refine List.takeWhile_eq_self_iff.2 fun c hc => ?_
  have hne : c ≠ ';' := fun heq => h (heq ▸ hc)
  simpa using hne

/-- A line without a comment that neither begins nor ends with white space is read as it stands. -/
theorem trim_stripComment_append {a m b : List Char} (ha : Solid a) (hb : Solid b) (hcomment : ';' ∉ a ++ m ++ b) :
    trim (stripComment (a ++ m ++ b)) = a ++ m ++ b := by
  rw [stripComment_eq_self hcomment, trim_append ha m hb]

theorem splitCommas_of_notMem {t : List Char} (h : ',' ∉ t) : splitCommas t = [t] := by
  induction t with
  | nil => rfl
  | cons c t ih =>
    obtain ⟨hc, ht⟩ := not_or.1 (mt List.mem_cons.2 h)
    rw [splitCommas, if_neg (Ne.symm hc), ih ht]

theorem splitCommas_append_comma {t : List Char} (h : ',' ∉ t) (u : List Char) :
    splitCommas (t ++ ',' :: u) = t :: splitCommas u := by
  induction t with
  | nil => rfl
  | cons c t ih =>
    obtain ⟨hc, ht⟩ := not_or.1 (mt List.mem_cons.2 h)
    rw [List.cons_append, splitCommas, if_neg (Ne.symm hc), ih ht]

theorem AllDigits.solid {t : List Char} (ht : AllDigits t) (hne : t ≠ []) : Solid t := by
  refine ⟨hne, fun c hc => ?_⟩
  have hspace : c ≠ ' ' := fun heq => ht.mark_notMem (c := ' ') (by decide) (heq ▸ hc)
  have htab : c ≠ '\t' := fun heq => ht.mark_notMem (c := '\t') (by decide) (heq ▸ hc)
  simp [isBlank, hspace, htab]

theorem solid_decimalText (n : Nat) : Solid (decimalText n) := (allDigits_decimalText n).solid (decimalText_ne_nil n)

/-! ### The three operands -/

/-- The operand text of a command: its fields in decimal, a comma and a space between them (R60). -/
def operandsText (v p ph : Nat) : List Char :=
  decimalText v ++ [',', ' '] ++ decimalText p ++ [',', ' '] ++ decimalText ph

theorem commandText_eq (i : Instr) : commandText i =
    mnemonicText i.op ++ ' ' :: operandsText i.volume.toNat i.period.toNat i.phase.toNat := by
  simp [commandText, operandsText]

theorem splitCommas_operandsText (v p ph : Nat) :
    splitCommas (operandsText v p ph) = [decimalText v, ' ' :: decimalText p, ' ' :: decimalText ph] := by
  have hcomma (n : Nat) : ',' ∉ decimalText n := (allDigits_decimalText n).mark_notMem (by decide)
  have hspaced (n : Nat) : ',' ∉ ' ' :: decimalText n := List.not_mem_cons_of_ne_of_not_mem (by decide) (hcomma n)
  have hshape : operandsText v p ph =
      decimalText v ++ ',' :: ((' ' :: decimalText p) ++ ',' :: (' ' :: decimalText ph)) := by
    simp [operandsText]
  rw [hshape, splitCommas_append_comma (hcomma v), splitCommas_append_comma (hspaced p),
    splitCommas_of_notMem (hspaced ph)]

theorem assembleOperands_operandsText (op : Op) {v p ph : Nat} (hv : v < 10 ^ 10) (hp : p < 10 ^ 10)
    (hph : ph < 10 ^ 10) : assembleOperands op (operandsText v p ph) = assembleCommand ⟨op, v, p, ph⟩ := by
  have hread {n : Nat} (hn : n < 10 ^ 10) : readLiteral (trim (decimalText n)) = some n := by
    rw [(solid_decimalText n).trim_eq, readLiteral_decimalText hn]
  simp only [assembleOperands, splitCommas_operandsText, trim_space_cons, hread hv, hread hp, hread hph]

theorem trim_operandsText (v p ph : Nat) : trim (operandsText v p ph) = operandsText v p ph := by
  have hshape : operandsText v p ph =
      decimalText v ++ ([',', ' '] ++ decimalText p ++ [',', ' ']) ++ decimalText ph := by
    simp [operandsText]
  rw [hshape, trim_append (solid_decimalText v) _ (solid_decimalText ph)]

theorem mark_notMem_operandsText {c : Char} (hc : c = ';' ∨ c = '(') (v p ph : Nat) : c ∉ operandsText v p ph := by
  have hdigits (n : Nat) : c ∉ decimalText n :=
    (allDigits_decimalText n).mark_notMem (by rcases hc with rfl | rfl <;> decide)
  have hbetween : c ∉ [',', ' '] := by rcases hc with rfl | rfl <;> decide
  simp only [operandsText, List.mem_append, hdigits, hbetween, or_self, not_false_eq_true]

/-- After white space the operand text is all that follows (R60). -/
theorem operandText_space (v p ph : Nat) : operandText (' ' :: operandsText v p ph) = some (operandsText v p ph) := by
  have hparen := mark_notMem_operandsText (.inr rfl) v p ph
  unfold operandText
  rw [trim_space_cons, trim_operandsText]
  split
  next rest htext => simp [htext] at hparen
  next => rfl

theorem solid_paren : Solid [')'] := by simp [Solid, isBlank]

/-- In the call notation the operand text is all between the parentheses (R60). -/
theorem operandText_call (t : List Char) : operandText ('(' :: (t ++ [')'])) = some t := by
  have hopen : Solid ['('] := by simp [Solid, isBlank]
  have htrim : trim ('(' :: (t ++ [')'])) = '(' :: (t ++ [')']) := trim_append hopen t solid_paren
  rw [operandText, htrim]
  simp

/-! ### The name a line begins with -/

/-- The characters of a mnemonic or of `.word`. -/
def isNameChar (c : Char) : Bool := c.isLower || c == '.'

theorem isBlank_of_isNameChar {c : Char} (h : isNameChar c = true) : isBlank c = false := by
  have hspace : c ≠ ' ' := by rintro rfl; revert h; decide
  have htab : c ≠ '\t' := by rintro rfl; revert h; decide
  simp [isBlank, hspace, htab]

theorem solid_of_isNameChar {t : List Char} (hne : t ≠ []) (h : ∀ c ∈ t, isNameChar c = true) : Solid t :=
  ⟨hne, fun c hc => isBlank_of_isNameChar (h c hc)⟩

theorem semicolon_notMem_of_isNameChar {t : List Char} (h : ∀ c ∈ t, isNameChar c = true) : ';' ∉ t :=
  fun hmem => absurd (h ';' hmem) (by decide)

theorem isNameChar_of_mem_mnemonicText (op : Op) : ∀ c ∈ mnemonicText op, isNameChar c = true :=
  List.all_eq_true.1 (by cases op <;> decide)

theorem isNameChar_of_mem_wordText : ∀ c ∈ wordText, isNameChar c = true := List.all_eq_true.1 (by decide)

theorem mnemonicText_ne_nil (op : Op) : mnemonicText op ≠ [] := by cases op <;> exact List.cons_ne_nil _ _

theorem opOfText_mnemonicText (op : Op) : opOfText (mnemonicText op) = some op := by cases op <;> decide

theorem mnemonicText_ne_wordText (op : Op) : mnemonicText op ≠ wordText := by cases op <;> decide

theorem takeWhile_name {name : List Char} (hname : ∀ c ∈ name, isNameChar c = true) {c : Char}
    (hc : isNameChar c = false) (rest : List Char) : (name ++ c :: rest).takeWhile isNameChar = name := by
  simp [List.takeWhile_append_of_pos hname, hc]

theorem dropWhile_name {name : List Char} (hname : ∀ c ∈ name, isNameChar c = true) {c : Char}
    (hc : isNameChar c = false) (rest : List Char) : (name ++ c :: rest).dropWhile isNameChar = c :: rest := by
  simp [List.dropWhile_append_of_pos hname, hc]

/-! ### The two forms of a line -/

/-- A line of a mnemonic is the command of its operation and the operand text after it (R60). -/
theorem assemble_mnemonic (op : Op) {c : Char} (hc : isNameChar c = false) {rest t : List Char}
    (hline : trim (stripComment (mnemonicText op ++ c :: rest)) = mnemonicText op ++ c :: rest)
    (ht : operandText (c :: rest) = some t) : assemble (mnemonicText op ++ c :: rest) = assembleOperands op t := by
  have hname := takeWhile_name (isNameChar_of_mem_mnemonicText op) hc rest
  have hafter := dropWhile_name (isNameChar_of_mem_mnemonicText op) hc rest
  unfold isNameChar at hname hafter
  unfold assemble
  rw [hline]
  split
  next hnil => simp at hnil
  next d ds hcons =>
    simp only [← hcons, hname, hafter, if_neg (mnemonicText_ne_wordText op), opOfText_mnemonicText, ht]

/-- A line of the `.word` form is the word itself (R61). -/
theorem assemble_wordText {t : List Char}
    (hline : trim (stripComment (wordText ++ ' ' :: t)) = wordText ++ ' ' :: t) :
    assemble (wordText ++ ' ' :: t) = assembleWord (trim t) := by
  have hspace : isNameChar ' ' = false := by decide
  have hname := takeWhile_name isNameChar_of_mem_wordText hspace t
  have hafter := dropWhile_name isNameChar_of_mem_wordText hspace t
  unfold isNameChar at hname hafter
  unfold assemble
  rw [hline]
  split
  next hnil => simp at hnil
  next d ds hcons =>
    have hblank : isBlank ' ' = true := by decide
    simp only [← hcons, hname, hafter, hblank, if_true, trim_space_cons]

/-! ### Commands -/

section
variable (op : Op) (v p ph : Nat)

theorem semicolon_notMem_line (c : Char) (hc : c ≠ ';') : ';' ∉ mnemonicText op ++ c :: operandsText v p ph := by
  have hname := semicolon_notMem_of_isNameChar (isNameChar_of_mem_mnemonicText op)
  have hoperands := mark_notMem_operandsText (.inl rfl) v p ph
  simp [hname, hoperands, hc.symm]

theorem trim_stripComment_space_line : trim (stripComment (mnemonicText op ++ ' ' :: operandsText v p ph)) =
    mnemonicText op ++ ' ' :: operandsText v p ph := by
  have hsolid := solid_of_isNameChar (mnemonicText_ne_nil op) (isNameChar_of_mem_mnemonicText op)
  have hcomment := semicolon_notMem_line op v p ph ' ' (by decide)
  have hshape : mnemonicText op ++ ' ' :: operandsText v p ph = mnemonicText op ++
      ([' '] ++ decimalText v ++ [',', ' '] ++ decimalText p ++ [',', ' ']) ++ decimalText ph := by
    simp [operandsText]
  rw [hshape] at hcomment ⊢
  exact trim_stripComment_append hsolid (solid_decimalText ph) hcomment

theorem trim_stripComment_call_line :
    trim (stripComment (mnemonicText op ++ '(' :: (operandsText v p ph ++ [')']))) =
      mnemonicText op ++ '(' :: (operandsText v p ph ++ [')']) := by
  have hsolid := solid_of_isNameChar (mnemonicText_ne_nil op) (isNameChar_of_mem_mnemonicText op)
  have hcomment := semicolon_notMem_line op v p ph '(' (by decide)
  have hshape : mnemonicText op ++ '(' :: (operandsText v p ph ++ [')']) =
      mnemonicText op ++ '(' :: operandsText v p ph ++ [')'] := by simp
  rw [hshape]
  exact trim_stripComment_append hsolid solid_paren (by simpa using hcomment)

variable {v p ph : Nat} (hv : v < 10 ^ 10) (hp : p < 10 ^ 10) (hph : ph < 10 ^ 10)
include hv hp hph

theorem assemble_space_line :
    assemble (mnemonicText op ++ ' ' :: operandsText v p ph) = assembleCommand ⟨op, v, p, ph⟩ := by
  rw [assemble_mnemonic op (by decide) (trim_stripComment_space_line op v p ph) (operandText_space v p ph),
    assembleOperands_operandsText op hv hp hph]

theorem assemble_call_line :
    assemble (mnemonicText op ++ '(' :: (operandsText v p ph ++ [')'])) = assembleCommand ⟨op, v, p, ph⟩ := by
  rw [assemble_mnemonic op (by decide) (trim_stripComment_call_line op v p ph) (operandText_call _),
    assembleOperands_operandsText op hv hp hph]

end

theorem wellFormed_iff (c : SourceCommand) :
    c.wellFormed = true ↔ c.volume ≤ 65535 ∧ c.period ≤ 65535 ∧ c.phase ≤ 4294967295 := by
  simp [SourceCommand.wellFormed, SourceCommand.volumeFits, SourceCommand.periodFits, SourceCommand.phaseFits,
    and_assoc]

/-- Settles O51: both notations come to the range check of the three literals. -/
theorem assemblerChecksLiterals : Obligations.AssemblerChecksLiterals := by
  rintro op v p ph hv hp hph args rfl res rfl
  have hcommand : assembleCommand ⟨op, v, p, ph⟩ = if v ≤ 65535 ∧ p ≤ 65535 ∧ ph ≤ 4294967295 then
      .word (encode (Instr.ofParts op (BitVec.ofNat 16 v) (BitVec.ofNat 16 p) (BitVec.ofNat 32 ph)))
      else .outOfRange := by
    simp only [assembleCommand, wellFormed_iff, SourceCommand.toInstr]
  rw [← hcommand, ← operandsText]
  refine ⟨?_, ?_⟩
  · rw [← assemble_space_line op hv hp hph, List.append_assoc, List.singleton_append]
  · rw [← assemble_call_line op hv hp hph]
    simp only [List.append_assoc, List.cons_append, List.nil_append]

/-- The fields of a command fit, so the assembler gives the word that encodes it. -/
theorem assembleCommand_fields (i : Instr) :
    assembleCommand ⟨i.op, i.volume.toNat, i.period.toNat, i.phase.toNat⟩ = .word (encode i) := by
  have hfits : (SourceCommand.mk i.op i.volume.toNat i.period.toNat i.phase.toNat).wellFormed = true :=
    (wellFormed_iff _).2
      ⟨Nat.le_of_lt_succ i.volume.isLt, Nat.le_of_lt_succ i.period.isLt, Nat.le_of_lt_succ i.phase.isLt⟩
  rw [assembleCommand, if_pos hfits, SourceCommand.toInstr]
  simp only [BitVec.ofNat_toNat, BitVec.setWidth_eq, Instr.ofParts_parts]

theorem assemble_commandText (i : Instr) : assemble (commandText i) = .word (encode i) := by
  have hvolume : i.volume.toNat < 10 ^ 10 := i.volume.isLt.trans (by decide)
  have hperiod : i.period.toNat < 10 ^ 10 := i.period.isLt.trans (by decide)
  have hphase : i.phase.toNat < 10 ^ 10 := i.phase.isLt.trans (by decide)
  rw [commandText_eq, assemble_space_line i.op hvolume hperiod hphase, assembleCommand_fields]

/-! ### Words -/

theorem allDigits_wordHex_digits (w : CmdWord) : AllDigits (hexLoop 17 w.toNat []) :=
  allDigits_hexLoop 17 w.toNat .nil

theorem assembleWord_wordHex (w : CmdWord) : assembleWord (wordHex w) = .word w := by
  have hread : readNumber 16 (hexLoop 17 w.toNat []) = some w.toNat :=
    readNumber_hexLoop (w.isLt.trans (by decide))
  simp [assembleWord, wordHex, hread, w.isLt]

theorem solid_wordHex (w : CmdWord) : Solid (wordHex w) := by
  have hdigits := ((allDigits_wordHex_digits w).solid (List.ne_nil_of_length_pos (by simp))).2
  refine ⟨List.cons_ne_nil _ _, ?_⟩
  simpa [wordHex, isBlank] using hdigits

theorem semicolon_notMem_wordHex (w : CmdWord) : ';' ∉ wordHex w := by
  have hdigits : ';' ∉ hexLoop 17 w.toNat [] := (allDigits_wordHex_digits w).mark_notMem (by decide)
  simp [wordHex, hdigits]

/-- Every word, reserved or not, has the `.word` form (R61). -/
theorem assemble_wordHex (w : CmdWord) : assemble (wordText ++ ' ' :: wordHex w) = .word w := by
  have hsolid := solid_of_isNameChar (List.cons_ne_nil _ _) isNameChar_of_mem_wordText
  have hcomment : ';' ∉ wordText ++ [' '] ++ wordHex w := by
    simp [semicolon_notMem_wordHex w, semicolon_notMem_of_isNameChar isNameChar_of_mem_wordText]
  have hline := trim_stripComment_append hsolid (solid_wordHex w) hcomment
  rw [List.append_assoc, List.singleton_append] at hline
  rw [assemble_wordText hline, (solid_wordHex w).trim_eq, assembleWord_wordHex]

/-- Settles O50: a command's line gives the word that encodes it, which is the word it was decoded from; a reserved word
is printed as itself. -/
theorem disassemblyAssemblesBack : Obligations.DisassemblyAssemblesBack := by
  intro w
  unfold disassemble
  split
  next i hd => rw [assemble_commandText, (decode_eq_instr_iff w i).1 hd]
  next => exact assemble_wordHex w

end Sys2Proof.Machine
end

section
/-! The laws of the two integer primitives: truncating division (R70) and narrowing (R74). -/

namespace Sys2Proof.Machine

/-! ### Truncating division -/

/-- The quotient's magnitude is the floor of the magnitudes' quotient (R70). -/
theorem natAbs_tdiv (a b : Int) : (tdiv a b).natAbs = a.natAbs / b.natAbs := by
  rw [tdiv_eq]
  exact Int.natAbs_tdiv a b

theorem abs_tdiv_mul_abs_le (a b : Int) : |tdiv a b| * |b| ≤ |a| := by
  rw [Int.abs_eq_natAbs, Int.abs_eq_natAbs, Int.abs_eq_natAbs, natAbs_tdiv]
  exact_mod_cast Nat.div_mul_le_self a.natAbs b.natAbs

theorem tdiv_of_nonneg (a b : Int) (ha : 0 ≤ a) : tdiv a b = a / b := by
  rw [tdiv_eq, Int.tdiv_eq_ediv_of_nonneg ha]

/-- What `tdiv` leaves is the library's remainder of truncating division. -/
theorem sub_mul_tdiv (a b : Int) : a - b * tdiv a b = Int.tmod a b := by
  rw [tdiv_eq, Int.tmod_def]

theorem abs_tmod_lt (a b : Int) (hb : b ≠ 0) : |Int.tmod a b| < |b| := by
  rw [Int.abs_eq_natAbs, Int.abs_eq_natAbs, Int.natAbs_tmod]
  exact_mod_cast Nat.mod_lt a.natAbs (Int.natAbs_pos.2 hb)

/-- Settles O41: the remainder has the sign of the dividend and is smaller than the divisor. -/
theorem divisionTruncatesTowardZero : Obligations.DivisionTruncatesTowardZero := by
  intro a b hb
  obtain ⟨hlower, hupper⟩ := abs_lt.1 (abs_tmod_lt a b hb)
  rw [sub_mul_tdiv]
  refine ⟨rfl, tdiv_neg_left a b, abs_tdiv_mul_abs_le a b, fun ha _ => tdiv_of_nonneg a b ha, fun ha => ?_,
    fun ha => ?_⟩
  · exact ⟨Int.tmod_nonneg b ha, hupper⟩
  · have hneg : 0 ≤ Int.tmod (-a) b := Int.tmod_nonneg b (by omega)
    rw [Int.neg_tmod] at hneg
    exact ⟨by omega, hlower⟩

/-! ### Narrowing -/

theorem toInt_narrow16_eq_narrowedValue (r : Int) : (narrow16 r).toInt = narrowedValue r := by
  rw [toInt_narrow16, Int.bmod_def, narrowedValue]
  split <;> split <;> omega

theorem dvd_narrowedValue_sub (r : Int) : (65536 : Int) ∣ narrowedValue r - r := by
  unfold narrowedValue
  split <;> omega

theorem narrowedValue_bounds (r : Int) : -32768 ≤ narrowedValue r ∧ narrowedValue r ≤ 32767 := by
  unfold narrowedValue
  split <;> omega

/-- Settles O42, by R74's case split. -/
theorem narrowingWraps : Obligations.NarrowingWraps := by
  intro r
  refine ⟨toInt_narrow16_eq_narrowedValue r, toInt_narrow16_of_fits r, ?_⟩
  rw [toInt_narrow16_eq_narrowedValue]
  exact ⟨dvd_narrowedValue_sub r, narrowedValue_bounds r⟩

end Sys2Proof.Machine
end

section
/-! The five operations against `wave` (R80, R81): which commands complete, what the step does with a presented word, and
how a result depends on the phase (R75, R76). -/

namespace Sys2Proof.Machine

/-! ### `wave`, operation by operation -/

section
variable (v : Volume) (p : Period) (ph : Phase)

theorem wave_of_reserved (op : OpField) (hop : 5 ≤ op.toNat) : wave op v p ph = .fault .illegalOp :=
  if_pos hop

/-- The four operations other than `test` have the one fault ZERO_PERIOD (R121). -/
theorem wave_of_le_three (op : OpField) (hop : op.toNat ≤ 3) :
    wave op v p ph = resultOf p (rawOf op.toNat v.toNat p.toNat ph.toNat) := by
  have hlegal : ¬ op.toNat ≥ 5 := by omega
  have hinner : ¬ (op.toNat = 4 ∧ trunc16 (tdiv (p.toNat * 7) 5) = 0) := by omega
  rw [wave, if_neg hlegal, if_neg hinner, resultOf]

theorem sawtoothResult_eq_wave : sawtoothResult v p ph = wave 0 v p ph :=
  (wave_of_le_three v p ph 0 (by decide)).symm

theorem triangleResult_eq_wave : triangleResult v p ph = wave 1 v p ph :=
  (wave_of_le_three v p ph 1 (by decide)).symm

theorem squareResult_eq_wave : squareResult v p ph = wave 2 v p ph :=
  (wave_of_le_three v p ph 2 (by decide)).symm

theorem sineResult_eq_wave : sineResult v p ph = wave 3 v p ph :=
  (wave_of_le_three v p ph 3 (by decide)).symm

theorem wave_test : wave 4 v p ph =
    if p = 0 then .fault .zeroPeriod
    else if innerPeriod p.toNat = 0 then .fault .zeroInnerPeriod
    else .sample (narrow16 (testRaw v.toNat p.toNat ph.toNat)) := by
  have hlegal : ¬ (4 : OpField).toNat ≥ 5 := by decide
  have hinner : ((4 : OpField).toNat = 4 ∧ trunc16 (tdiv (p.toNat * 7) 5) = 0) ↔ innerPeriod p.toNat = 0 :=
    and_iff_right rfl
  rw [wave, if_neg hlegal]
  simp only [hinner]
  rfl

/-- The meaning of `test` asks for the inner period first, but of a non-zero period only (R125). -/
theorem testResult_eq_wave : testResult v p ph = wave 4 v p ph := by
  rw [wave_test, testResult, resultOf, operand, operand, operand]
  by_cases hp : p = 0
  · simp only [hp, ne_eq, not_true_eq_false, false_and, if_false, if_true]
  · simp only [hp, ne_eq, not_false_eq_true, true_and, if_false]

end

/-- The inner period of R115 is 0 for one non-zero period only (R116). -/
theorem innerPeriod_eq_zero_iff (p : Period) (hp : p ≠ 0) : innerPeriod p.toNat = 0 ↔ p = 46812 :=
  innerPeriod_formula_eq_zero_iff p hp

/-- `wave` of an operation: the narrowed raw result exactly for the periods the contract allows, a fault for the others
(R82). -/
theorem wave_opNumber_cases (op : Op) (v : Volume) (p : Period) (ph : Phase) :
    ((p ≠ 0 ∧ (op = .test → p ≠ 46812)) ∧
      wave (opNumber op) v p ph = .sample (narrow16 (rawOf (opNumber op).toNat v.toNat p.toNat ph.toNat))) ∨
    (¬ (p ≠ 0 ∧ (op = .test → p ≠ 46812)) ∧ ∃ c, wave (opNumber op) v p ph = .fault c) := by
  by_cases htest : op = .test
  · subst htest
    by_cases hp : p = 0
    · exact .inr ⟨fun h => h.1 hp, .zeroPeriod, (wave_test v p ph).trans (if_pos hp)⟩
    · have hinner := innerPeriod_eq_zero_iff p hp
      have hwave := (wave_test v p ph).trans (if_neg hp)
      by_cases hq : p = 46812
      · exact .inr ⟨fun h => h.2 rfl hq, .zeroInnerPeriod, hwave.trans (if_pos (hinner.2 hq))⟩
      · exact .inl ⟨⟨hp, fun _ => hq⟩, hwave.trans (if_neg fun h => hq (hinner.1 h))⟩
  · have hop : (opNumber op).toNat ≤ 3 := by
      cases op with
      | sawtooth | triangle | square | sine => decide
      | test => exact absurd rfl htest
    rw [wave_of_le_three v p ph _ hop]
    rcases resultOf_cases p (rawOf (opNumber op).toNat v.toNat p.toNat ph.toNat) with ⟨hp, hr⟩ | ⟨hp, hr⟩
    · exact .inr ⟨fun h => h.1 hp, _, hr⟩
    · exact .inl ⟨⟨hp, fun h => absurd h htest⟩, hr⟩

/-! ### The meanings and the step against `wave` -/

/-- Every meaning ends with what `wave` answers, and `sawtooth` alone traces (R34, R80, R81). -/
theorem exec_eq_wave (i : Instr) (s : State) (hs : halted s = false) :
    exec i s =
      match wave (opNumber i.op) i.volume i.period i.phase with
      | .fault c => .next (afterFault s c)
      | .sample x => .next (afterSample s (if i.op = .sawtooth then traceBefore s i.period i.phase else []) x) := by
  cases i with
  | sawtooth v p ph =>
    rw [exec_sawtooth, sawtoothResult_eq_wave]
    exact runTracedCommand_of_not_halted _ p ph s hs
  | triangle v p ph =>
    rw [exec_triangle, triangleResult_eq_wave]
    exact runCommand_of_not_halted _ s hs
  | square v p ph =>
    rw [exec_square, squareResult_eq_wave]
    exact runCommand_of_not_halted _ s hs
  | sine v p ph =>
    rw [exec_sine, sineResult_eq_wave]
    exact runCommand_of_not_halted _ s hs
  | test v p ph =>
    rw [exec_test, testResult_eq_wave]
    exact runCommand_of_not_halted _ s hs

/-- Settles O18: `wave` answers a sample exactly for the commands that keep the duty. -/
theorem dutyKeptExactlyWhenCommandCompletes : Obligations.DutyKeptExactlyWhenCommandCompletes := by
  intro i s hs
  rw [exec_eq_wave i s hs]
  rcases wave_opNumber_cases i.op i.volume i.period i.phase with ⟨hduty, hwave⟩ | ⟨hduty, c, hwave⟩ <;> rw [hwave]
  · exact ⟨fun _ => ⟨_, rfl⟩, fun hno => absurd hduty hno⟩
  · exact ⟨fun h => absurd h hduty, fun _ => ⟨c, rfl⟩⟩

theorem opNumber_eq_zero_iff (op : Op) : opNumber op = 0 ↔ op = .sawtooth := by
  cases op <;> decide

/-- The trace event of a `sawtooth`, asked for by its `OP` number and the build parameter together (R34). -/
theorem ite_traceBefore (op : Op) (s : State) (p : Period) (ph : Phase) :
    (if op = .sawtooth then traceBefore s p ph else []) =
      if opNumber op = 0 ∧ s.traceEnable = true then [.trace p ph] else [] := by
  rw [ite_and, traceBefore]
  simp only [opNumber_eq_zero_iff]

/-- Settles O8: a word either is the encoding of the instruction that the step runs, or has a reserved `OP` field. -/
theorem stepRefinesWave : Obligations.StepRefinesWave := by
  intro s w rest hs hi
  cases hd : decode w with
  | instr i =>
    obtain rfl := (decode_eq_instr_iff w i).1 hd
    obtain ⟨hop, hvolume, hperiod, hphase⟩ := Laws.fields_of_append (opNumber i.op) i.volume i.period i.phase
    rw [step_of_decode_instr hs hi hd, exec_eq_wave i (withInputs rest s) hs, ite_traceBefore, encode, hop, hvolume,
      hperiod, hphase]
    rfl
  | illegalOp op =>
    have hreserved : 5 ≤ (opField w).toNat := (exists_decode_eq_illegalOp_iff w).1 ⟨op, hd⟩
    rw [step_of_decode_illegalOp hs hi hd, wave_of_reserved _ _ _ _ hreserved, raiseFault_eq_afterFault]

/-! ### The phase -/

section
variable {period phase phase' : Nat} (volume : Nat) (h : position period phase = position period phase')
include h

theorem sawtoothRaw_congr_position : sawtoothRaw volume period phase = sawtoothRaw volume period phase' := by
  simp only [sawtoothRaw, h]

theorem triangleRaw_congr_position : triangleRaw volume period phase = triangleRaw volume period phase' := by
  simp only [triangleRaw, h]

theorem squareRaw_congr_position : squareRaw volume period phase = squareRaw volume period phase' := by
  simp only [squareRaw, h]

theorem sineRaw_congr_position : sineRaw volume period phase = sineRaw volume period phase' := by
  simp only [sineRaw, h]

/-- Four of the five raw formulas read the phase through the position only (R75). -/
theorem rawOf_congr_position {op : Nat} (hop : op ≤ 3) :
    rawOf op volume period phase = rawOf op volume period phase' := by
  obtain rfl | rfl | rfl | rfl : op = 0 ∨ op = 1 ∨ op = 2 ∨ op = 3 := by omega
  · exact sawtoothRaw_congr_position volume h
  · exact triangleRaw_congr_position volume h
  · exact squareRaw_congr_position volume h
  · exact sineRaw_congr_position volume h

end

/-- Settles O38: the fault is decided by the period, and the raw result by the position. -/
theorem positionDeterminesResult : Obligations.PositionDeterminesResult := by
  intro op v p ph ph' hop h
  have hposition : position p.toNat ph.toNat = position p.toNat ph'.toNat := congrArg Nat.cast h
  rw [wave_of_le_three v p ph op hop, wave_of_le_three v p ph' op hop,
    rawOf_congr_position v.toNat hposition hop]

/-- The phase one period later, as a number, where the 32-bit sum does not wrap (R76). -/
theorem toNat_add_period (p : Period) (ph : Phase) (h : ph.toNat + p.toNat ≤ 4294967295) :
    (ph + p.setWidth 32).toNat = ph.toNat + p.toNat := by
  have hp : p.toNat < 65536 := p.isLt
  simp only [BitVec.toNat_add, BitVec.toNat_setWidth]
  omega

/-- Settles O39: a period more leaves the position as it is. At volume 1000 and period 100 `test` answers -980 at phase
100000 and 0 at phase 100100, because its inner sine has another period (R118). -/
theorem periodicExceptTest : Obligations.PeriodicExceptTest := by
  refine ⟨fun op v p ph hop hsum => positionDeterminesResult op v p _ ph hop ?_, 1000, 100, 100000, by decide,
    by decide, ?_⟩
  · rw [toNat_add_period p ph hsum, Nat.add_mod_right]
  · have hbefore : wave 4 1000 100 100000 = .sample (BitVec.ofInt 16 (-980)) := by decide
    have hafter : wave 4 1000 100 100100 = .sample 0 := by decide
    have hsum : (100000 + (100 : Period).setWidth 32 : Phase) = 100100 := by decide
    rw [hsum, hafter, hbefore]
    decide

end Sys2Proof.Machine
end

section
/-! Magnitudes in the sine engine (R72): the quarter position, the scaled coefficients, and a chain whose factor `xq / p`
is at most 1. -/

namespace Sys2Proof.Machine

/-! ### The quarter position -/

/-- The section as a floor, with the inequalities of its quarter (R102). -/
theorem sineSection_spec (p x : Nat) (hx : x < p) :
    ∃ q : Nat, q < 4 ∧ sineSection p x = q ∧ q * p ≤ 4 * x ∧ 4 * x < (q + 1) * p := by
  have hp : 0 < p := Nat.zero_lt_of_lt hx
  rw [Nat.mul_comm 4 x]
  refine ⟨x * 4 / p, (Nat.div_lt_iff_lt_mul hp).2 (by omega), tdiv_natCast (x * 4) p, Nat.div_mul_le_self _ _, ?_⟩
  exact (Nat.div_lt_iff_lt_mul hp).1 (Nat.lt_succ_self _)

/-- The quarter position is never negative and exceeds a quarter of the period by at most a quarter (R103). -/
theorem quarterPosition_bounds (p x : Nat) (hx : x < p) :
    0 ≤ quarterPosition p (sineSection p x) x ∧ 4 * quarterPosition p (sineSection p x) x ≤ p + 1 := by
  obtain ⟨q, hq, hsection, hlow, hhigh⟩ := sineSection_spec p x hx
  rw [hsection]
  simp only [quarterPosition, halfPeriod_eq]
  obtain rfl | rfl | rfl | rfl : q = 0 ∨ q = 1 ∨ q = 2 ∨ q = 3 := by omega
  · rw [if_pos (by decide)]
    omega
  · rw [if_neg (by decide), if_pos (by decide)]
    omega
  · rw [if_neg (by decide), if_neg (by decide), if_pos (by decide)]
    omega
  · rw [if_neg (by decide), if_neg (by decide), if_neg (by decide)]
    omega

/-! ### The scaled coefficients -/

/-- A coefficient with a negative literal is the negated floor of the magnitudes (R101). -/
theorem coefficient_neg (v n : Nat) : coefficient v (-(n : Int)) = -((v * n / 10000 : Nat) : Int) := by
  rw [coefficient, mul_neg]
  exact tdiv_neg_natCast (v * n) 10000

theorem coefficients_a (v : Nat) : (coefficients v).a = -((v * 4292 / 10000 : Nat) : Int) := coefficient_neg v 4292

theorem coefficients_b (v : Nat) : (coefficients v).b = -((v * 1416 / 10000 : Nat) : Int) := coefficient_neg v 1416

theorem coefficients_c (v : Nat) : (coefficients v).c = ((v * 15708 / 10000 : Nat) : Int) :=
  tdiv_natCast (v * 15708) 10000

/-- The magnitudes of the numbers a chain starts from, as floors (R104). -/
theorem abs_scaled_coefficients (v : Nat) :
    |(coefficients v).a * 64| = ((v * 4292 / 10000 * 64 : Nat) : Int) ∧
    |(coefficients v).b * 16| = ((v * 1416 / 10000 * 16 : Nat) : Int) ∧
    |(coefficients v).c * 4| = ((v * 15708 / 10000 * 4 : Nat) : Int) := by
  rw [coefficients_a, coefficients_b, coefficients_c, neg_mul, neg_mul, abs_neg, abs_neg]
  exact ⟨Nat.abs_cast (v * 4292 / 10000 * 64), Nat.abs_cast (v * 1416 / 10000 * 16),
    Nat.abs_cast (v * 15708 / 10000 * 4)⟩

/-- The same for 16-bit volumes (R72). -/
theorem abs_scaled_coefficients_le (v : Nat) (hv : v ≤ 65535) :
    |(coefficients v).a * 64| ≤ 1800128 ∧ |(coefficients v).b * 16| ≤ 148464 ∧ |(coefficients v).c * 4| ≤ 411768 := by
  obtain ⟨ha, hb, hc⟩ := abs_scaled_coefficients v
  rw [ha, hb, hc]
  omega

/-! ### The chain -/

section
variable {p : Nat} {xq w bound : Int}

theorem abs_mul_le_of_abs_le (hxq : 0 ≤ xq) (hw : |w| ≤ bound) : |w * xq| ≤ bound * xq := by
  rw [abs_mul, abs_of_nonneg hxq]
  exact mul_le_mul_of_nonneg_right hw hxq

/-- One factor `xq / p` of a chain enlarges nothing (R104). -/
theorem abs_chainStep_le (hp : 0 < p) (hxq : 0 ≤ xq) (hxqp : xq ≤ p) (hw : |w| ≤ bound) :
    |tdiv (w * xq) p| ≤ bound := by
  have hpos : (0 : Int) < p := by exact_mod_cast hp
  have hbound : 0 ≤ bound := (abs_nonneg w).trans hw
  refine le_of_mul_le_mul_right ?_ hpos
  calc |tdiv (w * xq) p| * p = |tdiv (w * xq) p| * |(p : Int)| := by rw [abs_of_pos hpos]
    _ ≤ |w * xq| := abs_tdiv_mul_abs_le _ _
    _ ≤ bound * xq := abs_mul_le_of_abs_le hxq hw
    _ ≤ bound * p := mul_le_mul_of_nonneg_left hxqp hbound

end

/-- The six products of a chain (R104), whose width R72 states and which R73 lists. -/
def CubicChain.products (c : CubicChain) : List Int := [c.m1, c.m2, c.m3, c.m4, c.m5, c.m6]

/-- Every product is bounded by what the chains start from, times `xq`. -/
theorem abs_products_le {v p : Nat} {xq bound : Int} (hp : 0 < p) (hxq : 0 ≤ xq) (hxqp : xq ≤ p)
    (ha : |(coefficients v).a * 64| ≤ bound) (hb : |(coefficients v).b * 16| ≤ bound)
    (hc : |(coefficients v).c * 4| ≤ bound) : ∀ m ∈ (cubicChain v p xq).products, |m| ≤ bound * xq := by
  have hd1 : |(cubicChain v p xq).d1| ≤ bound := abs_chainStep_le hp hxq hxqp ha
  have hd2 : |(cubicChain v p xq).d2| ≤ bound := abs_chainStep_le hp hxq hxqp hd1
  have hd4 : |(cubicChain v p xq).d4| ≤ bound := abs_chainStep_le hp hxq hxqp hb
  simp only [CubicChain.products, List.forall_mem_cons]
  exact ⟨abs_mul_le_of_abs_le hxq ha, abs_mul_le_of_abs_le hxq hd1, abs_mul_le_of_abs_le hxq hd2,
    abs_mul_le_of_abs_le hxq hb, abs_mul_le_of_abs_le hxq hd4, abs_mul_le_of_abs_le hxq hc, by simp⟩

/-- The three finished terms for 16-bit volumes. -/
theorem abs_terms_le {v p : Nat} {xq : Int} (hv : v ≤ 65535) (hp : 0 < p) (hxq : 0 ≤ xq) (hxqp : xq ≤ p) :
    |(cubicChain v p xq).t3| ≤ 1800128 ∧ |(cubicChain v p xq).t2| ≤ 148464 ∧ |(cubicChain v p xq).t1| ≤ 411768 := by
  obtain ⟨ha, hb, hc⟩ := abs_scaled_coefficients_le v hv
  have hstep {w bound : Int} (hw : |w| ≤ bound) : |tdiv (w * xq) p| ≤ bound := abs_chainStep_le hp hxq hxqp hw
  exact ⟨hstep (hstep (hstep ha)), hstep (hstep hb), hstep hc⟩

theorem abs_cubic_le {v p : Nat} {xq : Int} (hv : v ≤ 65535) (hp : 0 < p) (hxq : 0 ≤ xq) (hxqp : xq ≤ p) :
    |cubic v p xq| ≤ 2360360 := by
  obtain ⟨h3, h2, h1⟩ := abs_terms_le hv hp hxq hxqp
  rw [abs_le] at h3 h2 h1 ⊢
  rw [cubic]
  omega

@[simp] theorem abs_applySectionSign (q r : Int) : |applySectionSign q r| = |r| := by
  unfold applySectionSign
  split
  · rfl
  · exact abs_neg r

/-- The raw sine reads its cubic at the quarter position of `phase mod period` (R106). -/
theorem sineRaw_eq (v p ph : Nat) : sineRaw v p ph =
    applySectionSign (sineSection p (ph % p : Nat))
      (cubic v p (quarterPosition p (sineSection p (ph % p : Nat)) (ph % p : Nat))) := rfl

theorem abs_sineRaw_le (v p ph : Nat) (hv : v ≤ 65535) (hp : 0 < p) : |sineRaw v p ph| ≤ 2360360 := by
  obtain ⟨hxq, hxqp⟩ := quarterPosition_bounds p (ph % p) (Nat.mod_lt ph hp)
  rw [sineRaw_eq, abs_applySectionSign]
  exact abs_cubic_le hv hp hxq (by omega)

/-! ### The products of the linear waveforms -/

section
variable {v p x : Nat}

theorem sawtooth_product_le (hx : x < p) : x * v ≤ v * (p - 1) := by
  rw [Nat.mul_comm x v]
  exact Nat.mul_le_mul_left v (by omega)

theorem triangle_rising_product_le (hx : x < p / 2) : x * 2 * v ≤ v * (p - 2) := by
  rw [Nat.mul_comm _ v]
  exact Nat.mul_le_mul_left v (by omega)

theorem triangle_falling_product_le (hx : p / 2 ≤ x) : (p - x) * 2 * v ≤ v * (p + 1) := by
  rw [Nat.mul_comm _ v]
  exact Nat.mul_le_mul_left v (by omega)

end

/-- Settles O30: each bound at the largest 16-bit volume and period. -/
theorem datapathWidths : Obligations.DatapathWidths := by
  intro v p x hv hp hx
  have hpos : 0 < p := Nat.zero_lt_of_lt hx
  refine ⟨?_, fun hlow => ?_, fun hhigh => ?_, by omega, ?_, abs_sineRaw_le v p x hv hpos⟩
  · exact (sawtooth_product_le hx).trans (Nat.mul_le_mul hv (by omega : p - 1 ≤ 65534))
  · exact (triangle_rising_product_le hlow).trans
      ((Nat.mul_le_mul hv (by omega : p - 2 ≤ 65533)).trans (by norm_num))
  · exact (triangle_falling_product_le hhigh).trans (Nat.mul_le_mul hv (by omega : p + 1 ≤ 65536))
  · rintro c rfl
    obtain ⟨hxq, hxqp⟩ := quarterPosition_bounds p x hx
    obtain ⟨ha, hb, hc⟩ := abs_scaled_coefficients_le v hv
    have hproducts := abs_products_le hpos hxq (by omega) ha (hb.trans (by norm_num)) (hc.trans (by norm_num))
    have hle (m : Int) (hm : |m| ≤ 1800128 * quarterPosition p (sineSection p x) x) : |m| ≤ 29493297152 := by omega
    simp only [CubicChain.products, List.forall_mem_cons] at hproducts
    obtain ⟨h1, h2, h3, h4, h5, h6, -⟩ := hproducts
    exact ⟨hle _ h1, hle _ h2, hle _ h3, hle _ h4, hle _ h5, hle _ h6⟩

end Sys2Proof.Machine
end

section
/-! The 32-bit-safe domain (R73): what `INT32_SAFE` asks for, the implementation with signed 32-bit intermediates on it, and
the conditions that suffice for it. -/

namespace Sys2Proof.Machine

/-! ### Fitting signed 32 bits -/

theorem fitsInt32_iff (r : Int) : fitsInt32 r = true ↔ -2147483648 ≤ r ∧ r ≤ 2147483647 := decide_eq_true_iff

theorem fitsInt32_of_abs_le {r bound : Int} (h : |r| ≤ bound) (hbound : bound ≤ 2147483647) : fitsInt32 r = true := by
  rw [abs_le] at h
  rw [fitsInt32_iff]
  omega

theorem fitsInt32_natCast {n bound : Nat} (h : n ≤ bound) (hbound : bound ≤ 2147483647) : fitsInt32 n = true := by
  rw [fitsInt32_iff]
  omega

/-- No quotient by a natural number leaves 32 bits: it has the sign of the dividend and no larger magnitude. -/
theorem fitsInt32_tdiv {a : Int} (n : Nat) (h : fitsInt32 a = true) : fitsInt32 (tdiv a n) = true := by
  obtain ⟨m, rfl | rfl⟩ := a.eq_nat_or_neg
  all_goals
    have hle : m / n ≤ m := Nat.div_le_self m n
    rw [fitsInt32_iff] at h ⊢
  · rw [tdiv_natCast]
    generalize m / n = quotient at hle ⊢
    omega
  · rw [tdiv_neg_natCast]
    generalize m / n = quotient at hle ⊢
    omega

/-- A quotient by a natural number, both dividend and quotient kept in 32-bit variables (R73). -/
theorem wrap32_tdiv_wrap32 {a : Int} (n : Nat) (h : fitsInt32 a = true) : wrap32 (tdiv (wrap32 a) n) = tdiv a n := by
  rw [wrap32_of_fits a h, wrap32_of_fits _ (fitsInt32_tdiv n h)]

/-! ### What `INT32_SAFE` asks for -/

/-- `INT32_SAFE`: the command completes and every listed value fits (R73). -/
theorem int32Safe_iff (op : Op) (v : Volume) (p : Period) (ph : Phase) :
    int32Safe op v p ph = true ↔
      (p ≠ 0 ∧ (op = .test → p ≠ 46812)) ∧
        ∀ r ∈ int32Values op v.toNat p.toNat ph.toNat, fitsInt32 r = true := by
  rw [int32Safe]
  rcases wave_opNumber_cases op v p ph with ⟨hduty, hwave⟩ | ⟨hduty, c, hwave⟩ <;> rw [hwave]
  · exact List.all_eq_true.trans (and_iff_right hduty).symm
  · exact ⟨fun h => absurd h Bool.false_ne_true, fun h => absurd h.1 hduty⟩

/-- The values listed for one evaluation of the sine engine: those that do not depend on the quarter position, and the
products of the chain (R73). -/
theorem sineInt32Values_eq (v p ph : Nat) : sineInt32Values v p ph =
    [(v : Int) * 4292, (v : Int) * 1416, (v : Int) * 15708, (coefficients v).a * 64, (coefficients v).b * 16,
      (coefficients v).c * 4, position p ph * 4] ++
    (cubicChain v p (quarterPosition p (sineSection p (position p ph)) (position p ph))).products := rfl

/-! ### The 32-bit implementation on the listed values -/

/-- The last two operations of both linear ramps: a division, and the subtraction of half the volume (R90, R91). -/
theorem ramp32_of_fits {a : Int} {v p : Nat} (hv : v ≤ 65535) (ha : 0 ≤ a) (h : fitsInt32 a = true) :
    wrap32 (wrap32 (tdiv (wrap32 a) p) - tdiv v 2) = tdiv a p - tdiv v 2 := by
  have hfits : fitsInt32 (tdiv a p) = true := fitsInt32_tdiv p h
  have hquotient : 0 ≤ tdiv a p := by
    rw [tdiv_of_nonneg a p ha]
    exact Int.ediv_nonneg ha (Int.natCast_nonneg p)
  have hhalf : tdiv v 2 = ((v / 2 : Nat) : Int) := halfPeriod_eq v
  rw [wrap32_tdiv_wrap32 p h, hhalf]
  apply wrap32_of_fits
  rw [fitsInt32_iff] at hfits ⊢
  omega

theorem sawtoothRaw32_of_fits {v p : Nat} (ph : Nat) (hv : v ≤ 65535)
    (h : ∀ r ∈ int32Values .sawtooth v p ph, fitsInt32 r = true) : sawtoothRaw32 v p ph = sawtoothRaw v p ph :=
  ramp32_of_fits hv (mul_nonneg (position_nonneg p ph) (Int.natCast_nonneg v)) (h _ (List.mem_singleton.2 rfl))

theorem triangleRaw32_of_fits {v p : Nat} (ph : Nat) (hv : v ≤ 65535) (hp : 0 < p) (hp16 : p ≤ 65535)
    (h : ∀ r ∈ int32Values .triangle v p ph, fitsInt32 r = true) : triangleRaw32 v p ph = triangleRaw v p ph := by
  have hlow := position_nonneg p ph
  have hhigh := position_lt p ph hp
  have hdouble {x : Int} (hx : 0 ≤ x) (hxp : x ≤ p) : wrap32 (x * 2) = x * 2 :=
    wrap32_of_fits _ ((fitsInt32_iff _).2 (by omega))
  rw [int32Values] at h
  rw [triangleRaw32, triangleRaw]
  split_ifs at h ⊢
  · rw [hdouble hlow hhigh.le]
    exact ramp32_of_fits hv (by positivity) (h _ (List.mem_singleton.2 rfl))
  · have hrest : 0 ≤ p - position p ph := by omega
    rw [hdouble hrest (by omega)]
    exact ramp32_of_fits hv (by positivity) (h _ (List.mem_singleton.2 rfl))

theorem coefficients32 {v : Nat} (hv : v ≤ 65535) :
    coefficient32 v Config.coeffA = (coefficients v).a ∧ coefficient32 v Config.coeffB = (coefficients v).b ∧
      coefficient32 v Config.coeffC = (coefficients v).c := by
  have hfits {literal : Int} (hlo : -15708 ≤ literal) (hhi : literal ≤ 15708) : fitsInt32 (v * literal) = true := by
    have hle : |(v : Int) * literal| ≤ 65535 * 15708 := by
      rw [abs_mul]
      exact mul_le_mul (by simpa using hv) (abs_le.2 ⟨hlo, hhi⟩) (abs_nonneg _) (by norm_num)
    exact fitsInt32_of_abs_le hle (by norm_num)
  exact ⟨wrap32_tdiv_wrap32 10000 (hfits (by decide) (by decide)),
    wrap32_tdiv_wrap32 10000 (hfits (by decide) (by decide)),
    wrap32_tdiv_wrap32 10000 (hfits (by decide) (by decide))⟩

/-- Where the products fit, every intermediate of the chain fits: the quotients because the products do, and the three
terms because each factor `xq / p` is at most 1. -/
theorem cubic32_of_fits {v p : Nat} {xq : Int} (hv : v ≤ 65535) (hp : 0 < p) (hxq : 0 ≤ xq) (hxqp : xq ≤ p)
    (h : ∀ m ∈ (cubicChain v p xq).products, fitsInt32 m = true) : cubic32 v p xq = cubic v p xq := by
  obtain ⟨ha, hb, hc⟩ := abs_scaled_coefficients_le v hv
  obtain ⟨ht3, ht2, ht1⟩ := abs_terms_le hv hp hxq hxqp
  have hsum : |(cubicChain v p xq).t3 + (cubicChain v p xq).t2| ≤ 1948592 :=
    (abs_add_le _ _).trans (by omega)
  have hcubic : |(cubicChain v p xq).t3 + (cubicChain v p xq).t2 + (cubicChain v p xq).t1| ≤ 2360360 :=
    abs_cubic_le hv hp hxq hxqp
  obtain ⟨ha32, hb32, hc32⟩ := coefficients32 hv
  simp only [CubicChain.products, List.forall_mem_cons] at h
  obtain ⟨hm1, hm2, hm3, hm4, hm5, hm6, -⟩ := h
  have hd1 : chainStep32 p xq ((coefficients v).a * 64) = (cubicChain v p xq).d1 := wrap32_tdiv_wrap32 p hm1
  have hd2 : chainStep32 p xq (cubicChain v p xq).d1 = (cubicChain v p xq).d2 := wrap32_tdiv_wrap32 p hm2
  have hd3 : chainStep32 p xq (cubicChain v p xq).d2 = (cubicChain v p xq).t3 := wrap32_tdiv_wrap32 p hm3
  have hd4 : chainStep32 p xq ((coefficients v).b * 16) = (cubicChain v p xq).d4 := wrap32_tdiv_wrap32 p hm4
  have hd5 : chainStep32 p xq (cubicChain v p xq).d4 = (cubicChain v p xq).t2 := wrap32_tdiv_wrap32 p hm5
  have hd6 : chainStep32 p xq ((coefficients v).c * 4) = (cubicChain v p xq).t1 := wrap32_tdiv_wrap32 p hm6
  rw [cubic32, ha32, hb32, hc32, wrap32_of_fits _ (fitsInt32_of_abs_le ha (by norm_num)),
    wrap32_of_fits _ (fitsInt32_of_abs_le hb (by norm_num)), wrap32_of_fits _ (fitsInt32_of_abs_le hc (by norm_num))]
  simp only [hd1, hd2, hd3, hd4, hd5, hd6]
  rw [wrap32_of_fits _ (fitsInt32_of_abs_le hsum (by norm_num)),
    wrap32_of_fits _ (fitsInt32_of_abs_le hcubic (by norm_num)), cubic]

theorem sineRaw32_of_fits {v p : Nat} (ph : Nat) (hv : v ≤ 65535) (hp : 0 < p)
    (h : ∀ r ∈ sineInt32Values v p ph, fitsInt32 r = true) : sineRaw32 v p ph = sineRaw v p ph := by
  rw [sineInt32Values_eq, List.forall_mem_append] at h
  obtain ⟨hvalues, hproducts⟩ := h
  have hsection : tdiv (wrap32 (position p ph * 4)) p = sineSection p (position p ph) := by
    rw [wrap32_of_fits _ (hvalues _ (by simp)), sineSection]
  obtain ⟨hxq, hxqp⟩ := quarterPosition_bounds p (ph % p) (Nat.mod_lt ph hp)
  have hcubic : cubic32 v p (quarterPosition p (sineSection p (position p ph)) (position p ph)) =
      cubic v p (quarterPosition p (sineSection p (position p ph)) (position p ph)) :=
    cubic32_of_fits hv hp hxq (by unfold position; omega) hproducts
  simp only [sineRaw32, hsection, hcubic]
  exact wrap32_of_fits _ (fitsInt32_of_abs_le (abs_sineRaw_le v p ph hv hp) (by norm_num))

theorem testRaw32_of_fits {v p : Nat} (ph : Nat) (hv : v ≤ 65535) (hp : 0 < p) (hinner : 0 < innerPeriod p)
    (h : ∀ r ∈ int32Values .test v p ph, fitsInt32 r = true) : testRaw32 v p ph = testRaw v p ph := by
  simp only [int32Values, List.forall_mem_cons, List.forall_mem_append] at h
  obtain ⟨hproduct, hinnerSine, houterSine⟩ := h
  have hperiod : trunc16 (tdiv (wrap32 (p * 7)) 5) = innerPeriod p :=
    congrArg (fun r => trunc16 (tdiv r 5)) (wrap32_of_fits _ hproduct)
  have hsample : narrow16 (sineRaw32 v (innerPeriod p) ph) = innerSample v p ph :=
    congrArg narrow16 (sineRaw32_of_fits ph hv hinner hinnerSine)
  simp only [testRaw32, hperiod, hsample]
  exact sineRaw32_of_fits (modulatedPhase v p ph) hv hp houterSine

/-- Settles O43: each operation's intermediates fit where the values R73 lists fit. -/
theorem int32SafeImplementationAgrees : Obligations.Int32SafeImplementationAgrees := by
  intro op v p ph h
  obtain ⟨⟨hzero, htest⟩, hfits⟩ := (int32Safe_iff op v p ph).1 h
  have hv : v.toNat ≤ 65535 := Nat.le_of_lt_succ v.isLt
  have hp16 : p.toNat ≤ 65535 := Nat.le_of_lt_succ p.isLt
  have hp : 0 < p.toNat := Nat.pos_of_ne_zero fun h => hzero (BitVec.eq_of_toNat_eq h)
  cases op with
  | sawtooth => exact sawtoothRaw32_of_fits ph.toNat hv hfits
  | triangle => exact triangleRaw32_of_fits ph.toNat hv hp hp16 hfits
  | square => rfl
  | sine => exact sineRaw32_of_fits ph.toNat hv hp hfits
  | test =>
    have hinner : 0 < innerPeriod p.toNat :=
      Nat.pos_of_ne_zero fun h => htest rfl ((innerPeriod_eq_zero_iff p hzero).1 h)
    exact testRaw32_of_fits ph.toNat hv hp hinner hfits

/-! ### Sufficient conditions -/

section
variable {v p : Nat} (ph : Nat)

theorem int32Values_sawtooth_fit (hp : 0 < p) (h : v * (p - 1) ≤ 2147483647) :
    ∀ r ∈ int32Values .sawtooth v p ph, fitsInt32 r = true := by
  intro r hr
  obtain rfl : r = ((ph % p * v : Nat) : Int) := List.mem_singleton.1 hr
  exact fitsInt32_natCast ((sawtooth_product_le (Nat.mod_lt ph hp)).trans h) le_rfl

theorem int32Values_triangle_fit (hp : 0 < p) (h : v * (p + 1) ≤ 2147483647) :
    ∀ r ∈ int32Values .triangle v p ph, fitsInt32 r = true := by
  have hle : ph % p ≤ p := (Nat.mod_lt ph hp).le
  intro r hr
  rw [int32Values, halfPeriod_eq, position] at hr
  split_ifs at hr with hhalf
  · obtain rfl : r = ((ph % p * 2 * v : Nat) : Int) := List.mem_singleton.1 hr
    have hrising : v * (p - 2) ≤ v * (p + 1) := Nat.mul_le_mul_left v (by omega)
    exact fitsInt32_natCast (((triangle_rising_product_le (by omega)).trans hrising).trans h) le_rfl
  · obtain rfl : r = (((p - ph % p) * 2 * v : Nat) : Int) := by
      rw [List.mem_singleton.1 hr]
      push_cast [hle]
      rfl
    exact fitsInt32_natCast ((triangle_falling_product_le (by omega)).trans h) le_rfl

/-- No number that a chain starts from is above 64 * 0.4292 = 27.4688 times the volume, the factor of `A`. -/
theorem abs_scaled_coefficients_le_floor (v : Nat) :
    |(coefficients v).a * 64| ≤ ((v * 274688 / 10000 : Nat) : Int) ∧
    |(coefficients v).b * 16| ≤ ((v * 274688 / 10000 : Nat) : Int) ∧
    |(coefficients v).c * 4| ≤ ((v * 274688 / 10000 : Nat) : Int) := by
  obtain ⟨ha, hb, hc⟩ := abs_scaled_coefficients v
  rw [ha, hb, hc, Nat.cast_le, Nat.cast_le, Nat.cast_le]
  omega

/-- With a quarter position of at most `(p + 1) / 4`, every product of the chain fits. -/
theorem chain_products_fit {xq : Int} (hp : 0 < p) (hxq : 0 ≤ xq) (hxqp : 4 * xq ≤ p + 1)
    (h : v * (p + 4) ≤ 312000000) : ∀ m ∈ (cubicChain v p xq).products, fitsInt32 m = true := by
  obtain ⟨ha, hb, hc⟩ := abs_scaled_coefficients_le_floor v
  have hproducts := abs_products_le hp hxq (by omega) ha hb hc
  have hfloor : 10000 * ((v * 274688 / 10000 : Nat) : Int) ≤ 274688 * v := by omega
  have hvolume : (v : Int) * (p + 4) ≤ 312000000 := by exact_mod_cast h
  have hscaled : 10000 * ((v * 274688 / 10000 : Nat) : Int) * (4 * xq) ≤ 274688 * v * (p + 4) :=
    mul_le_mul hfloor (by omega) (by omega) (by positivity)
  exact fun m hm => fitsInt32_of_abs_le (hproducts m hm) (by linarith)

theorem int32Values_sine_fit (hv : v ≤ 65535) (hp : 0 < p) (hp16 : p ≤ 65535) (h : v * (p + 4) ≤ 312000000) :
    ∀ r ∈ int32Values .sine v p ph, fitsInt32 r = true := by
  obtain ⟨ha, hb, hc⟩ := abs_scaled_coefficients_le v hv
  obtain ⟨hxq, hxqp⟩ := quarterPosition_bounds p (ph % p) (Nat.mod_lt ph hp)
  have hlow := position_nonneg p ph
  have hhigh := position_lt p ph hp
  rw [int32Values, sineInt32Values_eq, List.forall_mem_append]
  refine ⟨?_, chain_products_fit hp hxq hxqp h⟩
  have hfits {r : Int} (hlo : -2147483648 ≤ r) (hhi : r ≤ 2147483647) := (fitsInt32_iff r).2 ⟨hlo, hhi⟩
  simp only [List.forall_mem_cons]
  exact ⟨hfits (by omega) (by omega), hfits (by omega) (by omega), hfits (by omega) (by omega),
    fitsInt32_of_abs_le ha (by norm_num), fitsInt32_of_abs_le hb (by norm_num), fitsInt32_of_abs_le hc (by norm_num),
    hfits (by omega) (by omega), by simp⟩

end

/-- Settles O44: each condition bounds the largest value R73 lists for its operation; `square` has none. -/
theorem int32SafeSufficientConditions : Obligations.Int32SafeSufficientConditions := by
  intro v p ph hzero
  have hv : v.toNat ≤ 65535 := Nat.le_of_lt_succ v.isLt
  have hp16 : p.toNat ≤ 65535 := Nat.le_of_lt_succ p.isLt
  have hp : 0 < p.toNat := Nat.pos_of_ne_zero fun h => hzero (BitVec.eq_of_toNat_eq h)
  have safe {op : Op} (hop : op ≠ .test) (hfit : ∀ r ∈ int32Values op v.toNat p.toNat ph.toNat, fitsInt32 r = true) :
      int32Safe op v p ph = true := (int32Safe_iff op v p ph).2 ⟨⟨hzero, fun h => absurd h hop⟩, hfit⟩
  exact ⟨fun h => safe (by decide) (int32Values_sawtooth_fit ph.toNat hp h),
    fun h => safe (by decide) (int32Values_triangle_fit ph.toNat hp h),
    safe (by decide) (List.forall_mem_nil _),
    fun h => safe (by decide) (int32Values_sine_fit ph.toNat hv hp hp16 h)⟩

end Sys2Proof.Machine
end

section
/-! The closed-form waveforms (R90 to R92): each raw formula as a floor of natural numbers, the end of a command whose only
fault is ZERO_PERIOD, and the rules of the three operations. `Linear` holds the statements whose names are functions of the
model too. -/

namespace Sys2Proof.Machine

/-! ### A ramp of `m` steps out of `p` -/

section
variable {m p v : Nat}

theorem ramp_lt_volume (hm : m < p) (hv : 0 < v) : m * v / p < v :=
  Nat.div_lt_of_lt_mul (Nat.mul_lt_mul_of_pos_right hm hv)

theorem ramp_le_volumes {k : Nat} (hm : m ≤ k * p) : m * v / p ≤ k * v :=
  Nat.div_le_of_le_mul ((Nat.mul_le_mul_right v hm).trans (Nat.le_of_eq (by ac_rfl)))

theorem ramp_mono {n : Nat} (h : m ≤ n) : m * v / p ≤ n * v / p :=
  Nat.div_le_div_right (Nat.mul_le_mul_right v h)

/-- A ramp `k` steps longer than the period climbs the volume and `k` steps more. -/
theorem ramp_of_period_add (hp : 0 < p) (k : Nat) : (p + k) * v / p = v + k * v / p := by
  rw [Nat.add_mul, Nat.mul_add_div hp]

end

/-! ### The raw formulas as floors -/

section
variable {v p : Nat} (ph : Nat)

theorem sawtoothRaw_eq : sawtoothRaw v p ph = ((ph % p * v / p : Nat) : Int) - ((v / 2 : Nat) : Int) :=
  congrArg₂ (· - ·) (tdiv_natCast (ph % p * v) p) (tdiv_natCast v 2)

/-- The number of ramp steps `triangle` is up at position `x`: two a tick, counted from the start of the period below
half of it and from the end above (R91). -/
def triangleSteps (p x : Nat) : Nat := if x < p / 2 then x * 2 else (p - x) * 2

/-- Both arms of `triangle` are one ramp over its own number of steps. -/
theorem triangleRaw_eq (hp : 0 < p) :
    triangleRaw v p ph = ((triangleSteps p (ph % p) * v / p : Nat) : Int) - ((v / 2 : Nat) : Int) := by
  have hrest : (p : Int) - ((ph % p : Nat) : Int) = ((p - ph % p : Nat) : Int) :=
    (Int.ofNat_sub (Nat.mod_lt ph hp).le).symm
  simp only [triangleRaw, triangleSteps, halfPeriod_eq, position, Nat.cast_lt, hrest]
  split
  · exact congrArg₂ (· - ·) (tdiv_natCast (ph % p * 2 * v) p) (tdiv_natCast v 2)
  · exact congrArg₂ (· - ·) (tdiv_natCast ((p - ph % p) * 2 * v) p) (tdiv_natCast v 2)

theorem squareRaw_eq : squareRaw v p ph =
    if ph % p < p / 2 then ((v / 4 : Nat) : Int) else -((v / 4 : Nat) : Int) := by
  have hquarter : tdiv v 4 = ((v / 4 : Nat) : Int) := tdiv_natCast v 4
  rw [squareRaw, halfPeriod_eq, position, hquarter]
  simp only [Nat.cast_lt]

end

/-! ### The steps of `triangle` -/

section
variable {p x : Nat}

theorem triangleSteps_zero (hp : 2 ≤ p) : triangleSteps p 0 = 0 := by
  rw [triangleSteps, if_pos (by omega)]

theorem triangleSteps_half (p : Nat) : triangleSteps p (p / 2) = p + p % 2 := by
  rw [triangleSteps, if_neg (Nat.lt_irrefl _)]
  omega

/-- Away from its peak `triangle` has not climbed the whole ramp. -/
theorem triangleSteps_lt (hx : x < p) (hhalf : x ≠ p / 2) : triangleSteps p x < p := by
  unfold triangleSteps
  split <;> omega

/-- At its peak it climbs at most twice the ramp, for period 1. -/
theorem triangleSteps_le (hx : x < p) : triangleSteps p x ≤ 2 * p := by
  unfold triangleSteps
  split <;> omega

end

/-! ### The end of a command -/

/-- The four operations whose only fault is ZERO_PERIOD: the period decides between the fault and the narrowed raw result,
and `sawtooth` alone traces (R34, R80, R81). -/
theorem exec_of_op_ne_test (i : Instr) (hop : i.op ≠ .test) (s : State) (hs : halted s = false) :
    (i.period = 0 → exec i s = .next (afterFault s .zeroPeriod)) ∧
    (i.period ≠ 0 → exec i s =
      .next (afterSample s (if i.op = .sawtooth then traceBefore s i.period i.phase else [])
        (narrow16 (rawOf (opNumber i.op).toNat i.volume.toNat i.period.toNat i.phase.toNat)))) := by
  have hle : (opNumber i.op).toNat ≤ 3 := by
    cases h : i.op with
    | sawtooth | triangle | square | sine => decide
    | test => exact absurd h hop
  rw [exec_eq_wave i s hs, wave_of_le_three _ _ _ _ hle]
  exact ⟨fun hp => by rw [resultOf, if_pos hp], fun hp => by rw [resultOf, if_neg hp]⟩

theorem toNat_pos_of_ne_zero {p : Period} (hp : p ≠ 0) : 0 < p.toNat :=
  Nat.pos_of_ne_zero fun h => hp (BitVec.eq_of_toNat_eq h)

/-! ### `sawtooth` -/

/-- The raw range of `sawtooth` (R90): its ramp never climbs the whole volume. -/
theorem sawtoothRaw_bounds {v p : Nat} (ph : Nat) (hv : v ≤ 65535) (hp : 0 < p) :
    -((v / 2 : Nat) : Int) ≤ sawtoothRaw v p ph ∧
    sawtoothRaw v p ph ≤ (((p - 1) * v / p : Nat) : Int) - ((v / 2 : Nat) : Int) ∧
    sawtoothRaw v p ph ≤ 32767 := by
  have htop : ph % p * v / p ≤ (p - 1) * v / p := ramp_mono (Nat.le_sub_one_of_lt (Nat.mod_lt ph hp))
  have hvolume : v = 0 ∨ (p - 1) * v / p < v :=
    v.eq_zero_or_pos.imp_right (ramp_lt_volume (Nat.sub_one_lt_of_lt hp))
  have hle : (p - 1) * v / p ≤ 1 * v := ramp_le_volumes (by omega)
  rw [sawtoothRaw_eq]
  generalize (p - 1) * v / p = top at *
  generalize ph % p * v / p = ramp at *
  omega

/-- Settles O21: the raw result fits 16 bits, so the sample is the raw result. -/
theorem Linear.sawtoothResult : Obligations.SawtoothResult := by
  intro v p ph s hs
  obtain ⟨hfault, hsample⟩ := exec_of_op_ne_test (.sawtooth v p ph) nofun s hs
  refine ⟨hfault, fun hp => ⟨narrow16 (sawtoothRaw v.toNat p.toNat ph.toNat), hsample hp, ?_⟩⟩
  have hv : v.toNat ≤ 65535 := Nat.le_of_lt_succ v.isLt
  obtain ⟨hlow, htop, hhigh⟩ := sawtoothRaw_bounds ph.toNat hv (toNat_pos_of_ne_zero hp)
  rw [toInt_narrow16_of_fits _ (by omega) hhigh]
  exact ⟨sawtoothRaw_eq ph.toNat, hlow, htop, hhigh⟩

/-- Settles O22: multiplying by the volume and taking the floor both keep the order of positions. -/
theorem sawtoothRampIsMonotone : Obligations.SawtoothRampIsMonotone := by
  intro v p ph ph' _
  simp only [sawtoothRaw_eq]
  refine ⟨fun h => Int.sub_le_sub_right (Nat.cast_le.2 (ramp_mono h)) _, fun h => ?_⟩
  rw [h, Nat.zero_mul, Nat.zero_div, Nat.cast_zero, zero_sub]

/-! ### `triangle` -/

/-- Settles O23: the number of steps is counted by the arm, and the raw result is narrowed by R74's case split. -/
theorem Linear.triangleResult : Obligations.TriangleResult := by
  intro v p ph s hs
  obtain ⟨hfault, hsample⟩ := exec_of_op_ne_test (.triangle v p ph) nofun s hs
  refine ⟨hfault, fun hp => ⟨narrow16 (triangleRaw v.toNat p.toNat ph.toNat), hsample hp, ?_⟩⟩
  rw [toInt_narrow16_eq_narrowedValue, triangleRaw_eq ph.toNat (toNat_pos_of_ne_zero hp), triangleSteps]
  split <;> rfl

/-- The raw value of `triangle` at half the period, where it has climbed one step too far for odd periods (R91). -/
theorem triangleRaw_of_half {v p ph : Nat} (hp : 0 < p) (hx : ph % p = p / 2) : triangleRaw v p ph =
    (v : Int) + (if p % 2 = 0 then 0 else ((v / p : Nat) : Int)) - ((v / 2 : Nat) : Int) := by
  rw [triangleRaw_eq ph hp, hx, triangleSteps_half, ramp_of_period_add hp]
  split
  next heven => rw [heven, Nat.zero_mul, Nat.zero_div, Nat.add_zero, add_zero]
  next hodd => rw [Nat.mod_two_ne_zero.1 hodd, Nat.one_mul, Nat.cast_add]

/-- Settles O24, by the number of ramp steps climbed: none at position 0, the period at the peak and one more for an odd
one, fewer elsewhere, never more than twice the period. -/
theorem trianglePeakAndRange : Obligations.TrianglePeakAndRange := by
  intro v p ph hp
  have hx : ph % p < p := Nat.mod_lt ph hp
  have hraw := triangleRaw_eq (v := v) ph hp
  generalize hramp : triangleSteps p (ph % p) * v / p = ramp at hraw
  have hlow : -((v / 2 : Nat) : Int) ≤ triangleRaw v p ph := by omega
  refine ⟨hlow, fun hzero hp2 => ?_, triangleRaw_of_half hp, fun hhalf hv => ?_, fun hv => ?_⟩
  · rw [hzero, triangleSteps_zero hp2, Nat.zero_mul, Nat.zero_div] at hramp
    omega
  · have hlt : ramp < v := hramp ▸ ramp_lt_volume (triangleSteps_lt hx hhalf) hv
    omega
  · have hle : ramp ≤ 2 * v := hramp ▸ ramp_le_volumes (triangleSteps_le hx)
    exact toInt_narrow16_of_fits _ (by omega) (by omega)

/-! ### `square` -/

/-- Settles O25: a quarter of a 16-bit volume fits the sample with either sign. -/
theorem Linear.squareResult : Obligations.SquareResult := by
  intro v p ph s hs
  obtain ⟨hfault, hsample⟩ := exec_of_op_ne_test (.square v p ph) nofun s hs
  refine ⟨hfault, fun hp => ⟨narrow16 (squareRaw v.toNat p.toNat ph.toNat), hsample hp, ?_⟩⟩
  have hv : v.toNat ≤ 65535 := Nat.le_of_lt_succ v.isLt
  rw [squareRaw_eq, toInt_narrow16_of_fits _ (by split <;> omega) (by split <;> omega)]

end Sys2Proof.Machine
end

section
/-! The sine engine's position part (R102, R103): the section as the quarter the position lies in, and the quarter position
as a natural number, counted by the quarter. -/

namespace Sys2Proof.Machine

/-! ### The section -/

/-- The section is a floor, so it is found by its two inequalities (R102). -/
theorem sineSection_eq_iff {p : Nat} {x : Int} (hp : 0 < p) (hx : 0 ≤ x) (q : Int) :
    sineSection p x = q ↔ q * p ≤ 4 * x ∧ 4 * x < (q + 1) * p := by
  have hpos : (0 : Int) < p := Int.natCast_pos.2 hp
  rw [sineSection, tdiv_of_nonneg _ _ (by omega), mul_comm x 4, ← Int.le_ediv_iff_mul_le hpos,
    ← Int.ediv_lt_iff_lt_mul hpos]
  omega

/-- Settles O27: the two inequalities of a section fix it, and those of a position below the period leave only four. -/
theorem sectionIsTheQuarterOfThePosition : Obligations.SectionIsTheQuarterOfThePosition := by
  intro p x hx hxp
  lift x to Nat using hx
  obtain ⟨q, hq, hsection, -⟩ := sineSection_spec p x (by omega)
  exact ⟨by omega, by omega, sineSection_eq_iff (by omega) (by omega)⟩

/-! ### The quarter position -/

/-- The quarter position of a position below the period, by the inequalities of the four quarters (R102, R103). It counts up
from the start of a half wave in the half's first quarter and down to its end in the second. -/
def quarterTicks (p x : Nat) : Nat :=
  if 4 * x < p then x
  else if 4 * x < 2 * p then p / 2 - x
  else if 4 * x < 3 * p then x - p / 2
  else p / 2 - (x - p / 2)

section
variable {p x : Nat}

theorem quarterTicks_first (hhigh : 4 * x < p) : quarterTicks p x = x := if_pos hhigh

theorem quarterTicks_second (hlow : p ≤ 4 * x) (hhigh : 4 * x < 2 * p) : quarterTicks p x = p / 2 - x := by
  rw [quarterTicks, if_neg (by omega), if_pos hhigh]

theorem quarterTicks_third (hlow : 2 * p ≤ 4 * x) (hhigh : 4 * x < 3 * p) : quarterTicks p x = x - p / 2 := by
  rw [quarterTicks, if_neg (by omega), if_neg (by omega), if_pos hhigh]

theorem quarterTicks_fourth (hlow : 3 * p ≤ 4 * x) : quarterTicks p x = p / 2 - (x - p / 2) := by
  rw [quarterTicks, if_neg (by omega), if_neg (by omega), if_neg (by omega)]

/-- The model's quarter position is the number of ticks of its quarter: no subtraction of R103 goes below 0. -/
theorem quarterPosition_eq (hx : x < p) : quarterPosition p (sineSection p x) x = quarterTicks p x := by
  have hsection (q : Int) := sineSection_eq_iff (p := p) (x := x) (by omega) (by omega) q
  simp only [quarterPosition, quarterTicks, halfPeriod_eq, hsection]
  split_ifs <;> omega

theorem quarterTicks_le (hx : x < p) : quarterTicks p x ≤ p / 4 + 1 := by
  unfold quarterTicks
  split_ifs <;> omega

/-- The largest count is reached in the third quarter only, where an odd period's half was rounded down (R103). -/
theorem quarter_of_quarterTicks_eq (hx : x < p) (h : quarterTicks p x = p / 4 + 1) :
    2 * p ≤ 4 * x ∧ 4 * x < 3 * p ∧ p % 4 = 3 := by
  unfold quarterTicks at h
  split_ifs at h <;> omega

/-- For even periods both half waves run through the same quarter positions (R103). -/
theorem quarterTicks_add_half (heven : p % 2 = 0) (hx : x + p / 2 < p) :
    quarterTicks p (x + p / 2) = quarterTicks p x := by
  unfold quarterTicks
  split_ifs <;> omega

theorem quarterTicks_zero (hp : 0 < p) : quarterTicks p 0 = 0 := quarterTicks_first hp

end

/-- Settles O28, on the number of ticks. -/
theorem quarterPositionBounds : Obligations.QuarterPositionBounds := by
  intro p x hx
  have hle := quarterTicks_le hx
  rw [quarterPosition_eq hx]
  refine ⟨by omega, by omega, by omega, by omega, fun htop => ?_, fun heven hhalf => ?_⟩
  · obtain ⟨hlow, hhigh, hmod⟩ := quarter_of_quarterTicks_eq hx (by omega)
    exact ⟨(sineSection_eq_iff (by omega) (by omega) 2).2 (by omega), hmod⟩
  · rw [quarterPosition_eq hhalf, quarterTicks_add_half heven hhalf]

end Sys2Proof.Machine
end

section
/-! The sine engine's cubic and its raw result (R101, R104 to R107): the coefficients, the chain as floors of magnitudes, and
`sine_raw` as a signed cubic of the ticks of a quarter. -/

namespace Sys2Proof.Machine

/-! ### The coefficients -/

/-- The three floors add up to the volume or one more: the literals add up to `COEFF_SCALE` (R101). -/
theorem coefficients_sum (v : Nat) :
    ((v * 15708 / 10000 : Nat) : Int) - ((v * 1416 / 10000 : Nat) : Int) - ((v * 4292 / 10000 : Nat) : Int) = v ∨
    ((v * 15708 / 10000 : Nat) : Int) - ((v * 1416 / 10000 : Nat) : Int) - ((v * 4292 / 10000 : Nat) : Int) = v + 1 := by
  omega

/-- Settles O26, from the coefficients as floors. -/
theorem coefficientsAreTruncatedProducts : Obligations.CoefficientsAreTruncatedProducts := by
  intro v
  have hsum := coefficients_sum v
  rw [coefficients_a, coefficients_b, coefficients_c]
  exact ⟨rfl, rfl, rfl, by omega, by omega⟩

/-! ### The cubic -/

/-- One factor `xq / p` of a chain that started from a negative coefficient: the floor of the magnitudes, negated (R104). -/
theorem tdiv_neg_mul_natCast (w xq p : Nat) : tdiv (-(w : Int) * xq) p = -((w * xq / p : Nat) : Int) := by
  rw [neg_mul]
  exact tdiv_neg_natCast (w * xq) p

theorem cubicChain_t3 (v p xq : Nat) : (cubicChain v p xq).t3 =
    -((v * 4292 / 10000 * 64 * xq / p * xq / p * xq / p : Nat) : Int) := by
  have hstart : (coefficients v).a * 64 = -((v * 4292 / 10000 * 64 : Nat) : Int) := by rw [coefficients_a]; omega
  simp only [cubicChain, hstart, tdiv_neg_mul_natCast]

theorem cubicChain_t2 (v p xq : Nat) : (cubicChain v p xq).t2 =
    -((v * 1416 / 10000 * 16 * xq / p * xq / p : Nat) : Int) := by
  have hstart : (coefficients v).b * 16 = -((v * 1416 / 10000 * 16 : Nat) : Int) := by rw [coefficients_b]; omega
  simp only [cubicChain, hstart, tdiv_neg_mul_natCast]

theorem cubicChain_t1 (v p xq : Nat) : (cubicChain v p xq).t1 =
    ((v * 15708 / 10000 * 4 * xq / p : Nat) : Int) := by
  rw [cubicChain, coefficients_c]
  exact tdiv_natCast (v * 15708 / 10000 * 4 * xq) p

/-- Settles O29, term by term; it holds for period 0 as well. -/
theorem cubicIsTheFloorChain : Obligations.CubicIsTheFloorChain := by
  intro v p xq _
  rw [cubic, cubicChain_t3, cubicChain_t2, cubicChain_t1, cubicByFloors]
  omega

theorem cubicByFloors_zero (v p : Nat) : cubicByFloors v p 0 = 0 := by simp [cubicByFloors]

/-- A quarter of the period takes a quarter of what it is multiplied with. -/
theorem mul_quarter_div {k : Nat} (hk : 0 < k) (w : Nat) : w * 4 * k / (4 * k) = w := by
  rw [Nat.mul_assoc]
  exact Nat.mul_div_cancel w (by omega)

/-- At a quarter of the period every factor `xq / p` is exactly a quarter, and the cubic is the coefficients' sum (R107). -/
theorem cubicByFloors_quarter {k : Nat} (v : Nat) (hk : 0 < k) :
    cubicByFloors v (4 * k) k = v ∨ cubicByFloors v (4 * k) k = v + 1 := by
  have h16 (w : Nat) : w * 16 = w * 4 * 4 := by omega
  have h64 (w : Nat) : w * 64 = w * 4 * 4 * 4 := by omega
  simp only [cubicByFloors, h16, h64, mul_quarter_div hk]
  exact coefficients_sum v

/-- Volume 1 has the coefficients 0, 0 and 1 (R107). -/
theorem cubicByFloors_volume_one (p xq : Nat) : cubicByFloors 1 p xq = ((4 * xq / p : Nat) : Int) := by
  simp [cubicByFloors]

/-! ### The raw result -/

/-- Sections 0 and 1 are the first half of the period (R103, R105). -/
theorem applySectionSign_sineSection {p x : Nat} (hp : 0 < p) (r : Int) :
    applySectionSign (sineSection p x) r = if 2 * x < p then r else -r := by
  have hsection (q : Int) := sineSection_eq_iff (p := p) (x := x) hp (by omega) q
  unfold applySectionSign
  refine if_congr ?_ rfl rfl
  rw [hsection, hsection]
  omega

section
variable {v p ph : Nat}

/-- `sine_raw` in natural numbers (R106). -/
theorem sineRaw_eq_floors (hp : 0 < p) : sineRaw v p ph =
    if 2 * (ph % p) < p then cubicByFloors v p (quarterTicks p (ph % p))
    else -cubicByFloors v p (quarterTicks p (ph % p)) := by
  rw [sineRaw_eq, quarterPosition_eq (Nat.mod_lt ph hp), cubicIsTheFloorChain v p _ hp,
    applySectionSign_sineSection hp]

theorem sineRaw_first_half (hp : 0 < p) (hx : 2 * (ph % p) < p) :
    sineRaw v p ph = cubicByFloors v p (quarterTicks p (ph % p)) := by
  rw [sineRaw_eq_floors hp, if_pos hx]

theorem sineRaw_second_half (hp : 0 < p) (hx : p ≤ 2 * (ph % p)) :
    sineRaw v p ph = -cubicByFloors v p (quarterTicks p (ph % p)) := by
  rw [sineRaw_eq_floors hp, if_neg (by omega)]

/-- Where the quarter position is 0 the wave is 0, on either half (R107). -/
theorem sineRaw_eq_zero (hp : 0 < p) (hticks : quarterTicks p (ph % p) = 0) : sineRaw v p ph = 0 := by
  rw [sineRaw_eq_floors hp, hticks, cubicByFloors_zero, neg_zero, ite_self]

/-- From the first half of an even period to the second the ticks stay and the sign turns (R107). -/
theorem sineRaw_add_half_of_first_half (heven : p % 2 = 0) (hx : 2 * (ph % p) < p) :
    sineRaw v p (ph + p / 2) = -sineRaw v p ph := by
  have hp : 0 < p := by omega
  have hposition : (ph + p / 2) % p = ph % p + p / 2 := by
    rw [← Nat.mod_add_mod]
    exact Nat.mod_eq_of_lt (by omega)
  rw [sineRaw_second_half hp (by omega), sineRaw_first_half hp hx, hposition,
    quarterTicks_add_half heven (by omega)]

end

/-! ### `sine` -/

/-- Settles O31, quarter by quarter. -/
theorem Sine.sineResult : Obligations.SineResult := by
  intro v p ph s hs
  obtain ⟨hfault, hsample⟩ := exec_of_op_ne_test (.sine v p ph) nofun s hs
  refine ⟨hfault, fun hp => ⟨narrow16 (sineRaw v.toNat p.toNat ph.toNat), hsample hp, ?_⟩⟩
  rintro P x h rfl rfl rfl
  have hpos : 0 < p.toNat := toNat_pos_of_ne_zero hp
  have hx : ph.toNat % p.toNat < p.toNat := Nat.mod_lt _ hpos
  rw [toInt_narrow16_eq_narrowedValue]
  refine ⟨fun hhigh => ?_, fun hlow hhigh => ⟨p.toNat / 2 - ph.toNat % p.toNat, by omega, ?_⟩,
    fun hlow hhigh => ⟨ph.toNat % p.toNat - p.toNat / 2, by omega, ?_⟩,
    fun hlow => ⟨p.toNat / 2 - (ph.toNat % p.toNat - p.toNat / 2), by omega, ?_⟩⟩
  · rw [sineRaw_first_half hpos (by omega), quarterTicks_first hhigh]
  · rw [sineRaw_first_half hpos (by omega), quarterTicks_second hlow hhigh]
  · rw [sineRaw_second_half hpos (by omega), quarterTicks_third hlow hhigh]
  · rw [sineRaw_second_half hpos (by omega), quarterTicks_fourth hlow]

/-- Settles O32: no tick at position 0, and a quarter of the period at the peak and at the trough. -/
theorem sineZeroCrossingAndPeak : Obligations.SineZeroCrossingAndPeak := by
  intro v p ph hp
  refine ⟨fun hx => sineRaw_eq_zero hp (hx ▸ quarterTicks_zero hp), ?_, ?_⟩
  · rintro ⟨k, rfl⟩ hx
    have hticks : quarterTicks (4 * k) (ph % (4 * k)) = k := by
      rw [quarterTicks_second (by omega) (by omega)]; omega
    rw [sineRaw_first_half hp (by omega), hticks]
    exact cubicByFloors_quarter v (by omega)
  · rintro ⟨k, rfl⟩ hx
    have hticks : quarterTicks (4 * k) (ph % (4 * k)) = k := by
      rw [quarterTicks_fourth (by omega)]; omega
    rw [sineRaw_second_half hp (by omega), hticks, neg_inj, neg_inj]
    exact cubicByFloors_quarter v (by omega)

/-- Settles O33: the step from the first half to the second negates, and from the second half on it is the same step
backwards, because two of them are a period. -/
theorem sineHalfWaveAntisymmetry : Obligations.SineHalfWaveAntisymmetry := by
  intro v p ph hp heven
  by_cases hx : 2 * (ph % p) < p
  · exact sineRaw_add_half_of_first_half heven hx
  · have hxp : ph % p < p := Nat.mod_lt ph hp
    have hposition : (ph + p / 2) % p = ph % p - p / 2 := by
      rw [← Nat.mod_add_mod, Nat.mod_eq_sub_mod (by omega), Nat.mod_eq_of_lt (by omega)]
      omega
    have hperiod : sineRaw v p (ph + p / 2 + p / 2) = sineRaw v p ph := by
      refine sineRaw_congr_position v (congrArg Nat.cast ?_)
      rw [show ph + p / 2 + p / 2 = ph + p by omega, Nat.add_mod_right]
    have hback := sineRaw_add_half_of_first_half (v := v) (ph := ph + p / 2) heven (by omega)
    rw [← hperiod, hback, neg_neg]

/-- Settles O34: periods 1 and 2 have no quarter position but 0, and volume 1 has the coefficients 0, 0 and 1. -/
theorem sineDegenerateCases : Obligations.SineDegenerateCases := by
  refine ⟨fun v p ph hp => ?_, ?_⟩
  · have hpos : 0 < p := by omega
    have hx : ph % p < p := Nat.mod_lt ph hpos
    refine sineRaw_eq_zero hpos ?_
    unfold quarterTicks
    split_ifs <;> omega
  · rintro p ph hp q rfl
    rw [sineRaw_eq, position, quarterPosition_eq (Nat.mod_lt ph hp), cubicIsTheFloorChain 1 p _ hp,
      cubicByFloors_volume_one]
    exact congrArg _ (tdiv_natCast (4 * quarterTicks p (ph % p)) p).symm

end Sys2Proof.Machine
end

section
/-! The frequency-modulated `test` (R115 to R118): the inner period as a floor modulo 2^16, the modulated phase as a 32-bit
sum, the end of the command, and what a phase later by a common multiple of the two periods keeps. `FmTest` holds the
statement whose name is a function of the model too. -/

namespace Sys2Proof.Machine

/-! ### The inner period -/

theorem innerPeriod_eq (p : Nat) : innerPeriod p = p * 7 / 5 % 65536 := by
  have hquotient : tdiv (p * Config.detuneNum) Config.detuneDen = ((p * 7 / 5 : Nat) : Int) := tdiv_natCast (p * 7) 5
  rw [innerPeriod, hquotient, trunc16_natCast]

/-- Settles O35: up to 46811 the quotient is below 2^16, and from 46812 to 65535 it is from 2^16 to below twice that. -/
theorem innerPeriodFormula : Obligations.InnerPeriodFormula := by
  intro p hp
  rw [innerPeriod_eq]
  refine ⟨rfl, fun hlow hhigh => ?_, fun hlow => ?_⟩
  · have hfits : p * 7 / 5 % 65536 = p * 7 / 5 := Nat.mod_eq_of_lt (by omega)
    exact ⟨hfits, by omega⟩
  · have hwraps : p * 7 / 5 % 65536 = p * 7 / 5 - 65536 := by omega
    omega

/-- The inner period in the width of a `period` operand (R115). -/
theorem toNat_ofNat_innerPeriod (p : Nat) : (BitVec.ofNat 16 (p * 7 / 5)).toNat = innerPeriod p := by
  rw [BitVec.toNat_ofNat, innerPeriod_eq]

/-! ### The modulated phase -/

/-- Adding a sign-extended sample to a phase is the sum of R117: the phase unsigned, the sample signed, modulo 2^32. -/
theorem toNat_add_signExtend (ph : Phase) (x : Sample) :
    (ph + x.signExtend 32).toNat = trunc32 (ph.toNat + x.toInt) := by
  rw [BitVec.toNat_add, BitVec.signExtend, BitVec.toNat_ofInt, trunc32]
  omega

theorem modulatedPhase_eq_toNat (v p : Nat) (ph : Phase) :
    modulatedPhase v p ph.toNat = (ph + (innerSample v p ph.toNat).signExtend 32).toNat :=
  (toNat_add_signExtend ph _).symm

/-- Away from both ends of the 32-bit range a 16-bit sample cannot make the sum wrap. -/
theorem natCast_modulatedPhase {ph : Nat} (v p : Nat) (hlow : 32768 ≤ ph) (hhigh : ph + 32767 ≤ 4294967295) :
    (modulatedPhase v p ph : Int) = ph + (innerSample v p ph).toInt := by
  obtain ⟨hmin, hmax⟩ : -32768 ≤ (innerSample v p ph).toInt ∧ (innerSample v p ph).toInt ≤ 32767 := by
    rw [innerSample, toInt_narrow16_eq_narrowedValue]
    exact narrowedValue_bounds _
  rw [modulatedPhase, trunc32]
  omega

/-! ### The result -/

theorem wave_sine_of_ne_zero (v : Volume) {p : Period} (ph : Phase) (hp : p ≠ 0) :
    wave 3 v p ph = .sample (narrow16 (sineRaw v.toNat p.toNat ph.toNat)) :=
  (wave_of_le_three v p ph 3 (by decide)).trans (if_neg hp)

/-- The inner evaluation (R117) is a `sine` command at the inner period, unless `test` faults. -/
theorem wave_inner_sine (v : Volume) {p : Period} (ph : Phase) (hp : p ≠ 0) (hwrap : p ≠ 46812) :
    wave 3 v (BitVec.ofNat 16 (p.toNat * 7 / 5)) ph = .sample (innerSample v.toNat p.toNat ph.toNat) := by
  have hinner : BitVec.ofNat 16 (p.toNat * 7 / 5) ≠ 0 := fun hzero =>
    hwrap ((innerPeriod_eq_zero_iff p hp).1 ((toNat_ofNat_innerPeriod p.toNat).symm.trans (congrArg BitVec.toNat hzero)))
  rw [wave_sine_of_ne_zero v ph hinner, toNat_ofNat_innerPeriod, innerSample]

/-- The outer evaluation (R118) is a `sine` command at the modulated phase. -/
theorem wave_outer_sine (v : Volume) {p : Period} (ph : Phase) (hp : p ≠ 0) :
    wave 3 v p (ph + (innerSample v.toNat p.toNat ph.toNat).signExtend 32) =
      .sample (narrow16 (testRaw v.toNat p.toNat ph.toNat)) := by
  rw [wave_sine_of_ne_zero v _ hp, testRaw, modulatedPhase_eq_toNat]

/-- The three ends of a `test` command: the two faults and the narrowed raw result (R116, R118). -/
theorem exec_test_of_not_halted (v : Volume) (p : Period) (ph : Phase) (s : State) (hs : halted s = false) :
    (p = 0 → exec (.test v p ph) s = .next (afterFault s .zeroPeriod)) ∧
    (p = 46812 → exec (.test v p ph) s = .next (afterFault s .zeroInnerPeriod)) ∧
    (p ≠ 0 → p ≠ 46812 →
      exec (.test v p ph) s = .next (afterSample s [] (narrow16 (testRaw v.toNat p.toNat ph.toNat)))) := by
  rw [exec_test, runCommand_of_not_halted _ s hs, testResult_eq_wave, wave_test]
  refine ⟨fun hzero => ?_, fun hwrap => ?_, fun hp hwrap => ?_⟩
  · rw [if_pos hzero]
  · have hp : p ≠ 0 := by rw [hwrap]; decide
    rw [if_neg hp, if_pos ((innerPeriod_eq_zero_iff p hp).2 hwrap)]
  · rw [if_neg hp, if_neg fun hinner => hwrap ((innerPeriod_eq_zero_iff p hp).1 hinner)]

/-- Settles O36: the inner and the outer evaluation are two `sine` commands. -/
theorem FmTest.testResult : Obligations.TestResult := by
  intro v p ph s hs
  obtain ⟨hzeroPeriod, hzeroInner, hsample⟩ := exec_test_of_not_halted v p ph s hs
  exact ⟨hzeroPeriod, hzeroInner, fun hp hwrap =>
    ⟨_, _, wave_inner_sine v ph hp hwrap, wave_outer_sine v ph hp, hsample hp hwrap⟩⟩

/-! ### Repetition -/

/-- `sine_raw` repeats after every multiple of its period (R75). -/
theorem sineRaw_add_of_dvd (v : Nat) {p len : Nat} (ph : Nat) (h : p ∣ len) :
    sineRaw v p (ph + len) = sineRaw v p ph := by
  obtain ⟨k, rfl⟩ := h
  exact sineRaw_congr_position v (congrArg Nat.cast (Nat.add_mul_mod_self_left ph p k))

theorem innerSample_add_of_dvd (v : Nat) {p len : Nat} (ph : Nat) (h : innerPeriod p ∣ len) :
    innerSample v p (ph + len) = innerSample v p ph :=
  congrArg narrow16 (sineRaw_add_of_dvd v ph h)

/-- A multiple of the inner period keeps the inner sample, so it moves the modulated phase by itself where neither sum
wraps. -/
theorem modulatedPhase_add_of_dvd (v : Nat) {p ph len : Nat} (h : innerPeriod p ∣ len) (hlow : 32768 ≤ ph)
    (hhigh : ph + len + 32767 ≤ 4294967295) : modulatedPhase v p (ph + len) = modulatedPhase v p ph + len := by
  have hlater := natCast_modulatedPhase v p (hlow.trans (Nat.le_add_right ph len)) hhigh
  have hfirst := natCast_modulatedPhase v p hlow (by omega)
  rw [innerSample_add_of_dvd v ph h] at hlater
  omega

/-- Settles O37: the modulated phase moves by `len`, which is a multiple of the outer period as well. -/
theorem testRepeatsAfterCommonMultiple : Obligations.TestRepeatsAfterCommonMultiple := by
  intro v p ph len _ _ houter hinner hlow hhigh
  rw [testRaw, testRaw, modulatedPhase_add_of_dvd v hinner hlow hhigh, sineRaw_add_of_dvd v _ houter]

end Sys2Proof.Machine
end

section
/-! The exceptions (R121 to R129): the `STATUS` of a fault taken, the halted block and its one step, the idle block, and
which fault a command takes when more than one cause applies. -/

namespace Sys2Proof.Machine

/-! ### Taking a fault -/

/-- Settles O2: the register that R124's three writes leave is built from its new fields, and the rest is the state's
own. -/
theorem takingAFaultWritesStatus : Obligations.TakingAFaultWritesStatus := by
  intro c s
  have hfault : statusFault (raiseFault c s).block.status = true := halted_raiseFault s c
  have hcause : statusCause (raiseFault c s).block.status = causeCode c := by
    rw [raiseFault_status, statusCause_mkStatus]
  have hvalid : statusValid (raiseFault c s).block.status = false := by
    rw [raiseFault_status, statusValid_mkStatus]
  have hrecorded : recordedCause (raiseFault c s) = some c := by
    rw [recordedCause, hcause, causeOfCode_causeCode]
  exact ⟨hfault, hcause, hvalid, rfl, rfl, rfl, rfl, hfault, hfault, hrecorded⟩

/-! ### No command to run: the idle block and the halted block -/

/-- Settles O5: nothing presented to a block that is not halted is the idle event. -/
theorem idleBlockKeepsItsState : Obligations.IdleBlockKeepsItsState := by
  intro s hs hi
  have hnext : nextEvent s = .idle := by simp [nextEvent, hs, hi]
  simp only [step, hnext]

/-- No meaning runs on a halted block, whichever of the two envelopes it ends in (R127). -/
theorem exec_of_halted (i : Instr) (s : State) (hs : halted s = true) : exec i s = .fault .halted := by
  by_cases hop : i.op = .sawtooth
  · rw [exec_of_op_eq_sawtooth i hop, runTracedCommand_of_halted _ _ _ s hs]
  · obtain ⟨r, hexec⟩ := exec_of_op_ne_sawtooth i hop
    rw [hexec, runCommand_of_halted r s hs]

theorem step_of_halted_of_reset_notMem (s : State) (hs : halted s = true) (hi : .reset ∉ s.inputs) :
    step s = .fault .halted := by
  have hnext : nextEvent s = .stuck := by simp [nextEvent, hs, (removeReset_eq_none_iff _).2 hi]
  simp only [step, hnext]

/-- Taking the first reset out of the events is erasing it (R127; log 2). -/
theorem mem_and_eq_erase_of_removeReset {l rest : List Input} (h : removeReset l = some rest) :
    .reset ∈ l ∧ rest = l.erase .reset := by
  obtain ⟨a, b, hwords, rfl, rfl⟩ := (removeReset_eq_some_iff l rest).1 h
  have hnotMem : Input.reset ∉ a := fun hmem => hwords .reset hmem rfl
  rw [List.erase_append_right _ hnotMem, List.erase_cons_head]
  exact ⟨List.mem_append_right a List.mem_cons_self, rfl⟩

/-- The one step of a halted block is the first reset among the events (R127, R128, R150). -/
theorem step_eq_next_of_halted (s t : State) (hs : halted s = true) (h : step s = .next t) :
    .reset ∈ s.inputs ∧ t = afterReset s (s.inputs.erase .reset) := by
  have hrunning : halted s ≠ false := by rw [hs]; decide
  rcases step_cases s t h with ⟨hno, -⟩ | ⟨rest, -, hreset, rfl⟩ | ⟨_, hno, -⟩ | ⟨_, _, _, hno, -⟩ | ⟨_, _, _, hno, -⟩
  case inr.inl =>
    obtain ⟨hmem, rfl⟩ := mem_and_eq_erase_of_removeReset hreset
    exact ⟨hmem, resetBlock_eq_afterReset s _⟩
  all_goals exact absurd hno hrunning

/-- Settles O6: a meaning finds the block halted, no reset to come leaves it stuck, and its one step is a reset. -/
theorem haltedBlockHasNoStep : Obligations.HaltedBlockHasNoStep := by
  intro s hs
  refine ⟨fun i => exec_of_halted i s hs, step_of_halted_of_reset_notMem s hs, fun t h => ?_⟩
  obtain ⟨hmem, rfl⟩ := step_eq_next_of_halted s t hs h
  exact ⟨hmem, rfl, rfl, rfl⟩

/-! ### Which fault a command takes -/

section
variable (v : Volume) (p : Period) (ph : Phase)

/-- ZERO_PERIOD comes before ZERO_INNER_PERIOD (R121, R125). -/
theorem wave_of_zero_period (op : OpField) (hop : op.toNat ≤ 4) : wave op v 0 ph = .fault .zeroPeriod := by
  rw [wave, if_neg (by omega), if_pos rfl]

/-- The inner period of `test` wraps to 0 at period 46812 (R116, R123). -/
theorem wave_test_of_period_46812 : wave 4 v 46812 ph = .fault .zeroInnerPeriod := by
  have hperiod : (46812 : Period) ≠ 0 := by decide
  rw [wave_test, if_neg hperiod, if_pos ((innerPeriod_eq_zero_iff _ hperiod).2 rfl)]

/-- None of the three causes applies, so the command completes (R82). -/
theorem wave_of_no_cause (op : OpField) (hop : op.toNat ≤ 4) (hp : p ≠ 0) (htest : op = 4 → p ≠ 46812) :
    wave op v p ph = .sample (narrow16 (rawOf op.toNat v.toNat p.toNat ph.toNat)) := by
  have hinner : ¬ (op.toNat = 4 ∧ trunc16 (tdiv (p.toNat * 7) 5) = 0) := fun ⟨hfour, hzero⟩ =>
    htest (BitVec.eq_of_toNat_eq hfour) ((innerPeriod_eq_zero_iff p hp).1 hzero)
  rw [wave, if_neg (by omega), if_neg hp, if_neg hinner]

end

theorem toNat_opNumber_le_four (op : Op) : (opNumber op).toNat ≤ 4 := by cases op <;> decide

/-- Settles O16: `wave` of period 0 is ZERO_PERIOD for every operation. -/
theorem zeroPeriodFaultsInEveryOperation : Obligations.ZeroPeriodFaultsInEveryOperation := by
  intro i s hs hp
  rw [exec_eq_wave i s hs, hp, wave_of_zero_period _ _ _ (toNat_opNumber_le_four i.op)]

/-- Settles O17: the inner period is 0 for period 46812 only, where `test` takes its second fault. -/
theorem zeroInnerPeriodFaults : Obligations.ZeroInnerPeriodFaults := by
  intro v p ph s hs hp
  obtain ⟨-, hfault, -⟩ := exec_test_of_not_halted v p ph s hs
  have hinner := innerPeriod_formula_eq_zero_iff p hp
  exact ⟨hinner, fun hzero => hfault (hinner.1 hzero)⟩

/-- Settles O15: the step is `wave` of the word's fields, whose tests stand in the order of the causes. -/
theorem faultPriority : Obligations.FaultPriority := by
  intro s w rest hs hi
  rw [stepRefinesWave s w rest hs hi]
  refine ⟨fun hop => ?_, fun hop hp => ?_, fun hop hp => ?_, fun hop hp htest => ?_⟩
  · rw [wave_of_reserved _ _ _ _ hop]
  · rw [hp, wave_of_zero_period _ _ _ hop]
  · rw [hop, hp, wave_test_of_period_46812]
  · rw [wave_of_no_cause _ _ _ _ hop hp htest]
    exact ⟨_, _, rfl⟩

end Sys2Proof.Machine
end

section
/-! Reset, liveness and runs of many commands (R150, R151, R161, R163): the step of every kind of event, what a run of
commands that all complete reaches, and the run that a fault ends. -/

namespace Sys2Proof.Machine

/-! ### The step, event by event -/

/-- A reset presented first, before a command (R151). -/
theorem step_of_reset {s : State} {rest : List Input} (hs : halted s = false) (hi : s.inputs = .reset :: rest) :
    step s = .next (afterReset s rest) := by
  have hnext : nextEvent s = .reset rest := by simp [nextEvent, hs, hi]
  simp only [step, hnext, resetBlock_eq_afterReset]

/-- The first reset overtakes the words presented to a halted block (R127, R151; log 2). -/
theorem step_of_halted_of_reset {s : State} {a b : List Input} (hs : halted s = true) (ha : ∀ i ∈ a, i ≠ .reset)
    (hi : s.inputs = a ++ .reset :: b) : step s = .next (afterReset s (a ++ b)) := by
  have hremove : removeReset s.inputs = some (a ++ b) := (removeReset_eq_some_iff _ _).2 ⟨a, b, ha, hi, rfl⟩
  have hnext : nextEvent s = .reset (a ++ b) := by simp [nextEvent, hs, hremove]
  simp only [step, hnext, resetBlock_eq_afterReset]

/-- Settles O7: the block takes the reset that stands first, and when halted the first one there is. -/
theorem resetClearsTheBlock : Obligations.ResetClearsTheBlock :=
  ⟨fun _ _ => step_of_reset, fun _ _ _ => step_of_halted_of_reset⟩

section
variable {s : State} {w : CmdWord} {rest : List Input}

/-- A presented word that faults (R124). -/
theorem step_of_wave_fault {c : FaultCause} (hs : halted s = false) (hi : s.inputs = .command w :: rest)
    (hw : waveOfWord w = .fault c) : step s = .next (afterFault (withInputs rest s) c) := by
  rw [waveOfWord] at hw
  rw [stepRefinesWave s w rest hs hi, hw]

/-- A presented word that completes; with its response it delivers what `deliveredBy` says (R81). -/
theorem step_of_wave_sample {x : Sample} (hs : halted s = false) (hi : s.inputs = .command w :: rest)
    (hw : waveOfWord w = .sample x) :
    ∃ before, before ++ [.resp x] = deliveredBy s.traceEnable w x ∧
      step s = .next (afterSample (withInputs rest s) before x) := by
  rw [waveOfWord] at hw
  rw [stepRefinesWave s w rest hs hi, hw]
  refine ⟨_, ?_, rfl⟩
  simp only [deliveredBy, and_comm]

/-- Every presented word is consumed, whether it completes or faults (R161). -/
theorem step_consumes_command (hs : halted s = false) (hi : s.inputs = .command w :: rest) :
    ∃ t, step s = .next t ∧ t.inputs = rest := by
  cases hw : waveOfWord w with
  | fault c => exact ⟨_, step_of_wave_fault hs hi hw, rfl⟩
  | sample x =>
    obtain ⟨before, -, hstep⟩ := step_of_wave_sample hs hi hw
    exact ⟨_, hstep, rfl⟩

end

/-- Settles O10, by the event that is presented first. -/
theorem blockNeverHangsUnlessHalted : Obligations.BlockNeverHangsUnlessHalted := by
  intro s hs
  cases hi : s.inputs with
  | nil => exact ⟨s, idleBlockKeepsItsState s hs hi, fun _ _ hno => nomatch hno⟩
  | cons i rest =>
    cases i with
    | reset => exact ⟨_, step_of_reset hs hi, fun _ _ hno => nomatch hno⟩
    | command w =>
      obtain ⟨t, hstep, hrest⟩ := step_consumes_command hs hi
      refine ⟨t, hstep, fun w' rest' heq => ?_⟩
      cases heq
      exact hrest

/-! ### A run of commands that all complete -/

/-- The host reads the last response delivered, with `VALID` = 1 (R16, R163). -/
def ShowsLastResponse (s : State) : Prop :=
  statusValid s.block.status = true ∧ readSample s = (responses s).getLast?

theorem showsLastResponse_afterSample (s : State) (before : List Output) (x : Sample) :
    ShowsLastResponse (afterSample s before x) := by
  have hvalid : statusValid (afterSample s before x).block.status = true := statusValid_mkStatus ..
  exact ⟨hvalid, (if_pos hvalid).trans (sampleIsLastResponse_afterSample s before x hvalid).symm⟩

/-- `t` is `s` after the words `ws`, which stood first in `s` and have all completed (R163). By
`stepMany_of_allComplete` as many steps as words reach such a state. -/
structure CompletedFrom (s : State) (ws : List CmdWord) (t : State) : Prop where
  inputs : s.inputs = ws.map .command ++ t.inputs
  outputs : t.outputs = s.outputs ++ deliveredByAll s.traceEnable ws
  traceEnable : t.traceEnable = s.traceEnable
  not_halted : halted t = false
  shows : ws ≠ [] ∨ ShowsLastResponse s → ShowsLastResponse t

theorem CompletedFrom.nil {s : State} (hs : halted s = false) : CompletedFrom s [] s where
  inputs := rfl
  outputs := (List.append_nil _).symm
  traceEnable := rfl
  not_halted := hs
  shows h := h.resolve_left fun hne => hne rfl

/-- One word more in front, when its completion leads to where the other words start. -/
theorem CompletedFrom.cons {s t : State} {w : CmdWord} {ws : List CmdWord} {rest : List Input} {before : List Output}
    {x : Sample} (hi : s.inputs = .command w :: rest) (hw : waveOfWord w = .sample x)
    (hbefore : before ++ [.resp x] = deliveredBy s.traceEnable w x)
    (h : CompletedFrom (afterSample (withInputs rest s) before x) ws t) : CompletedFrom s (w :: ws) t where
  inputs := hi.trans (congrArg (Input.command w :: ·) h.inputs)
  outputs := by
    have hall : deliveredByAll s.traceEnable (w :: ws) =
        before ++ [.resp x] ++ deliveredByAll s.traceEnable ws := by
      rw [deliveredByAll, hw, hbefore]
    rw [hall, ← List.append_assoc]
    exact h.outputs
  traceEnable := h.traceEnable
  not_halted := h.not_halted
  shows _ := h.shows (.inr (showsLastResponse_afterSample ..))

theorem halted_afterSample (s : State) (before : List Output) (x : Sample) :
    halted (afterSample s before x) = halted s := statusFault_mkStatus ..

/-- As many steps as words complete them all, whatever is presented after them (R163). -/
theorem stepMany_of_allComplete (ws : List CmdWord) (post : List Input) (s : State) (hs : halted s = false)
    (hi : s.inputs = ws.map .command ++ post) (hws : AllComplete ws) :
    ∃ t, stepMany ws.length s = .next t ∧ CompletedFrom s ws t := by
  induction ws generalizing s with
  | nil => exact ⟨s, stepMany_zero s, .nil hs⟩
  | cons w ws ih =>
    obtain ⟨hhead, htail⟩ := List.forall_mem_cons.1 hws
    obtain ⟨x, hw⟩ := hhead
    obtain ⟨before, hbefore, hstep⟩ := step_of_wave_sample hs hi hw
    have hrunning := (halted_afterSample (withInputs (ws.map .command ++ post) s) before x).trans hs
    obtain ⟨t, hrun, hdone⟩ := ih _ hrunning rfl htail
    exact ⟨t, (stepMany_succ_of_next _ s _ hstep).trans hrun, .cons hi hw hbefore hdone⟩

/-- Settles O52: the run of completing words with nothing presented after them. -/
theorem commandsCompleteInOrder : Obligations.CommandsCompleteInOrder := by
  intro ws s hs hi hws
  obtain ⟨t, hrun, hdone⟩ := stepMany_of_allComplete ws [] s hs (hi.trans (List.append_nil _).symm) hws
  have hinputs : t.inputs = [] := List.append_right_eq_self.1 (hdone.inputs.symm.trans hi)
  exact ⟨t, hrun, hinputs, hdone.outputs, hdone.not_halted, fun hne => hdone.shows (.inl hne)⟩

/-! ### A run that a fault ends -/

theorem halted_afterFault (s : State) (c : FaultCause) : halted (afterFault s c) = true := statusFault_mkStatus ..

/-- A run goes on from where its first part ends. -/
theorem stepMany_add_of_next {j : Nat} (k : Nat) {s t : State} (h : stepMany j s = .next t) :
    stepMany (j + k) s = stepMany k t := by
  induction j generalizing s with
  | zero =>
    cases h
    rw [Nat.zero_add]
  | succ j ih =>
    rw [Nat.succ_add]
    cases hstep : step s with
    | next u =>
      rw [stepMany_succ_of_next j s u hstep] at h
      rw [stepMany_succ_of_next _ s u hstep, ih h]
    | fault r =>
      rw [stepMany_succ_of_fault j s r hstep] at h
      cases h
    | refused r => simp [stepMany, hstep] at h

/-- A halted block to which only words are presented makes no step (R127; log 5). -/
theorem stepMany_of_halted_of_words (k : Nat) {s : State} (ws : List CmdWord) (hs : halted s = true)
    (hi : s.inputs = ws.map .command) : stepMany (k + 1) s = .fault .halted := by
  have hnoReset : .reset ∉ s.inputs := by simp [hi]
  exact stepMany_succ_of_fault k s _ (step_of_halted_of_reset_notMem s hs hnoReset)

/-- Settles O53: the completing words lead to a state in which the faulting word is presented first, and after its fault
only words are presented to the halted block. -/
theorem firstFaultEndsTheCommands : Obligations.FirstFaultEndsTheCommands := by
  intro pre post w c s hs hi hpre hw
  rw [List.map_append, List.map_cons] at hi
  obtain ⟨t, hrun, hdone⟩ := stepMany_of_allComplete pre _ s hs hi hpre
  have hinputs : t.inputs = .command w :: post.map .command := List.append_cancel_left (hdone.inputs.symm.trans hi)
  have hstep := step_of_wave_fault hdone.not_halted hinputs hw
  have hfault : stepMany (pre.length + 1) s = .next (afterFault (withInputs (post.map .command) t) c) :=
    (stepMany_add_of_next 1 hrun).trans (stepMany_succ_of_next 0 t _ hstep)
  refine ⟨?_, fun k => ?_⟩
  · rw [hfault, ← hdone.outputs, ← hdone.traceEnable]
    rfl
  · rw [stepMany_add_of_next (k + 1) hfault]
    exact stepMany_of_halted_of_words k post (halted_afterFault ..) rfl

end Sys2Proof.Machine
end
